-- ==== Sys2Proof/Word.lean ====
section
/-! DEFINITION. The word types of the Duck Machine core and their plainest arithmetic
(spec/00_scope.md R8 to R13). -/

namespace Sys2Proof

/-- `Word32`: a 32-bit word, the content of a register, of a memory cell and of an instruction (R8, R10). -/
abbrev Word := BitVec 32

/-- A byte of a serialised program image; the core has none (R52, R56). -/
abbrev Byte := BitVec 8

/-- A set of condition flags as four bits: M bit 0, Z bit 1, P bit 2, V bit 3 (R8, R13, R30, R86). -/
abbrev Flags := BitVec 4

/-- A register index: a 4-bit number, each of whose 16 values names a register (R20, R84). -/
abbrev RegIdx := Fin 16

/-- A source text of the assembler: one line, a name or a rendering, as its characters. -/
abbrev Text := List Char

/-- `wrap32(i)`: the word whose unsigned value is `i mod 2^32` (R10). -/
def wrap32 (i : Int) : Word := BitVec.ofInt 32 i

/-- `s(w)`: the signed two's-complement value of a word (R10). -/
abbrev sval (w : Word) : Int := w.toInt

/-- `u(w)`: the unsigned value of a word (R10). -/
abbrev uval (w : Word) : Nat := w.toNat

namespace Flag

/-- M: Negative (R30, R86). -/
def M : Flags := 0b0001#4
/-- Z: Zero (R30, R86). -/
def Z : Flags := 0b0010#4
/-- P: Positive (R30, R86). -/
def P : Flags := 0b0100#4
/-- V: Overflow (R30, R86). -/
def V : Flags := 0b1000#4
/-- NEVER: the empty set (R13, R86). -/
def never : Flags := 0b0000#4
/-- ALWAYS: the set of all four flags (R13, R86). -/
def always : Flags := 0b1111#4

end Flag

end Sys2Proof
end

