-- ==== Sys2Proof/Config.lean ====
section
/-! DEFINITION. The values of the implementation parameters of spec/00_scope.md R8 that this model fixes, and the
two defaults it needs to write a reset state down. No value here is free: the spec leaves no result of an
instruction open. -/

namespace Sys2Proof.Config

/-- `RESET_FLAGS` = ALWAYS (R8, R37). -/
def resetFlags : Flags := Flag.always

/-- `DIV_ZERO_RESULT` = 0 (R8, R144). -/
def divZeroResult : Word := 0#32

/-- The default of `RESERVED_BIT_FAULTS`: bit 31 is ignored on decode (R8, R89). -/
def reservedBitFaults : Bool := false

/-- The default of the assembler's `ERROR_LIMIT` (R8, R266). -/
def errorLimit : Nat := 5

/-- `MEM_SIZE` in the reset state: every address a signed 32-bit word can name, 0 to 2^31 - 1.
DESIGN CHOICE (log entry 2): the spec leaves `MEM_SIZE` open, as an argument of the model. -/
def memSize : Nat := 2147483648

/-- What a memory word that the memory list does not list reads as.
DESIGN CHOICE (log entry 3): the spec leaves `MEM_INIT` open; any contents are a list of cells. -/
def unlistedWord : Word := 0#32

end Sys2Proof.Config
end

