-- ==== Sys2Proof/Syntax.lean ====
section
/-! DEFINITION. The instruction record (spec/40_bit_codec.md R114) and the instructions, one constructor per row of
spec/opcode_table.json. -/

namespace Sys2Proof

/-- The seven defined opcodes (R85). -/
inductive Opcode where
  | halt | load | store | add | sub | mul | div
  deriving DecidableEq, Repr

/-- An instruction record (R114): opcode, condition, target, src1, src2 and the signed offset. -/
structure Record where
  opcode : Opcode
  cond : Flags
  rt : RegIdx
  rs1 : RegIdx
  rs2 : RegIdx
  offset : Int
  deriving DecidableEq, Repr

/-- The rows of the opcode table. The first seven are the hardware's instructions, each holding the fields of its
record. JUMP and DATA are the assembler's pseudo-instructions (R93): `jump` is an ADD into R15 whose offset is the
displacement, `data` is one literal word. Decoding yields only the first seven. -/
inductive Instr where
  | halt (cond : Flags) (rt rs1 rs2 : RegIdx) (offset : Int)
  | load (cond : Flags) (rt rs1 rs2 : RegIdx) (offset : Int)
  | store (cond : Flags) (rt rs1 rs2 : RegIdx) (offset : Int)
  | add (cond : Flags) (rt rs1 rs2 : RegIdx) (offset : Int)
  | sub (cond : Flags) (rt rs1 rs2 : RegIdx) (offset : Int)
  | mul (cond : Flags) (rt rs1 rs2 : RegIdx) (offset : Int)
  | div (cond : Flags) (rt rs1 rs2 : RegIdx) (offset : Int)
  | jump (cond : Flags) (displacement : Int)
  | data (word : Word)
  deriving DecidableEq, Repr

end Sys2Proof
end

