-- ==== Sys2Proof/WellFormed.lean ====
section
/-! DEFINITION. Well-formed records and instructions (spec/40_bit_codec.md R114). The condition and the three
register indices are in range by their types; the offset is the one field that needs a check. -/

namespace Sys2Proof

/-- An offset is representable in the 10-bit signed field: -512 to 511 (R83, R114). -/
def offsetInRange (d : Int) : Bool := decide (-512 ≤ d) && decide (d ≤ 511)

/-- A record is well-formed exactly when every field is in its range (R114). -/
def Record.wf (r : Record) : Bool := offsetInRange r.offset

/-- An instruction is well-formed when the offset it holds, if any, is representable (R114; for JUMP R262). -/
def Instr.wf : Instr → Bool
  | .halt _ _ _ _ d => offsetInRange d
  | .load _ _ _ _ d => offsetInRange d
  | .store _ _ _ _ d => offsetInRange d
  | .add _ _ _ _ d => offsetInRange d
  | .sub _ _ _ _ d => offsetInRange d
  | .mul _ _ _ _ d => offsetInRange d
  | .div _ _ _ _ d => offsetInRange d
  | .jump _ d => offsetInRange d
  | .data _ => true

end Sys2Proof
end

