-- ==== Sys2Proof/Decode.lean ====
section
/-! DEFINITION. The block instruction_codec (spec/40_bit_codec.md): the three bit-field primitives, the decoder,
and after it the encoder, over the layout of spec/30_encoding.md R81. -/

namespace Sys2Proof

/-- `extract(word, lo, hi)`: the unsigned value of bits `hi:lo` (R110). -/
def extract (w : Word) (lo hi : Nat) : Nat := (w.toNat >>> lo) &&& (2 ^ (hi - lo + 1) - 1)

/-- `extract_signed(word, lo, hi)`: the same bits read as a two's-complement number (R111). -/
def extractSigned (w : Word) (lo hi : Nat) : Int :=
  if extract w lo hi ≥ 2 ^ (hi - lo) then (extract w lo hi : Int) - 2 ^ (hi - lo + 1) else extract w lo hi

/-- `insert(value, word, lo, hi)`: `word` with bits `hi:lo` replaced by the low bits of `value`, which may be any
integer and is truncated, not rejected (R112). -/
def insert (value : Int) (w : Word) (lo hi : Nat) : Word :=
  (w &&& ~~~(BitVec.ofNat 32 ((2 ^ (hi - lo + 1) - 1) <<< lo))) |||
    BitVec.ofNat 32 ((value % 2 ^ (hi - lo + 1)).toNat <<< lo)

/-- The opcode numbers (R85): 4 is a gap. -/
def Opcode.num : Opcode → Nat
  | .halt => 0 | .load => 1 | .store => 2 | .add => 3 | .sub => 5 | .mul => 6 | .div => 7

/-- The opcode a number names; 4 and 8 to 31 name none (R85, R88). -/
def Opcode.ofNum : Nat → Option Opcode
  | 0 => some .halt
  | 1 => some .load
  | 2 => some .store
  | 3 => some .add
  | 5 => some .sub
  | 6 => some .mul
  | 7 => some .div
  | _ => none

/-- Why a word is no instruction (R88; the second reason only with `RESERVED_BIT_FAULTS`, R89). -/
inductive DecodeError where
  | undefinedOpcode (number : Nat)
  | reservedBitSet
  deriving DecidableEq, Repr

/-- `decode(word)` (R115), with the parameter `RESERVED_BIT_FAULTS` as its first argument (R89): when it is false
bit 31 is ignored. -/
def decodeRecord (reservedBitFaults : Bool) (w : Word) : Except DecodeError Record :=
  if reservedBitFaults && w.getLsbD 31 then .error .reservedBitSet
  else
    match Opcode.ofNum (extract w 26 30) with
    | none => .error (.undefinedOpcode (extract w 26 30))
    | some op =>
      .ok { opcode := op
            cond := BitVec.ofNat 4 (extract w 22 25)
            rt := Fin.ofNat 16 (extract w 18 21)
            rs1 := Fin.ofNat 16 (extract w 14 17)
            rs2 := Fin.ofNat 16 (extract w 10 13)
            offset := extractSigned w 0 9 }

/-- The instruction a record stands for. -/
def Record.toInstr (r : Record) : Instr :=
  match r.opcode with
  | .halt => .halt r.cond r.rt r.rs1 r.rs2 r.offset
  | .load => .load r.cond r.rt r.rs1 r.rs2 r.offset
  | .store => .store r.cond r.rt r.rs1 r.rs2 r.offset
  | .add => .add r.cond r.rt r.rs1 r.rs2 r.offset
  | .sub => .sub r.cond r.rt r.rs1 r.rs2 r.offset
  | .mul => .mul r.cond r.rt r.rs1 r.rs2 r.offset
  | .div => .div r.cond r.rt r.rs1 r.rs2 r.offset

/-- The decoder: the instruction of a word, or the reason why there is none (R115, R88, R89). -/
def decodeWith (reservedBitFaults : Bool) (w : Word) : Except DecodeError Instr :=
  (decodeRecord reservedBitFaults w).map Record.toInstr

/-- The decoder with the default of `RESERVED_BIT_FAULTS` (R89). -/
def decode (w : Word) : Except DecodeError Instr := decodeWith Config.reservedBitFaults w

/-- The six inserts of the encoder, on field values of any size: each value is truncated to its field (R112, R116).
Bit 31 is never set. -/
def packFields (op cond rt rs1 rs2 offset : Int) : Word :=
  insert offset (insert rs2 (insert rs1 (insert rt (insert cond (insert op 0 26 30) 22 25) 18 21) 14 17) 10 13) 0 9

/-- `encode(record)` (R116). -/
def Record.encode (r : Record) : Word :=
  packFields r.opcode.num r.cond.toNat r.rt.val r.rs1.val r.rs2.val r.offset

/-- The record whose word an instruction is: its own for the seven, ADD into R15 from `r0` and `r15` for JUMP (R260),
none for a DATA word, which is any pattern (R93). -/
def Instr.record : Instr → Option Record
  | .halt c t a b d => some ⟨.halt, c, t, a, b, d⟩
  | .load c t a b d => some ⟨.load, c, t, a, b, d⟩
  | .store c t a b d => some ⟨.store, c, t, a, b, d⟩
  | .add c t a b d => some ⟨.add, c, t, a, b, d⟩
  | .sub c t a b d => some ⟨.sub, c, t, a, b, d⟩
  | .mul c t a b d => some ⟨.mul, c, t, a, b, d⟩
  | .div c t a b d => some ⟨.div, c, t, a, b, d⟩
  | .jump c d => some ⟨.add, c, 15, 0, 15, d⟩
  | .data _ => none

/-- The word of an instruction (R116; for JUMP R260, for DATA R250). -/
def encode : Instr → Word
  | .halt c t a b d => (Record.mk .halt c t a b d).encode
  | .load c t a b d => (Record.mk .load c t a b d).encode
  | .store c t a b d => (Record.mk .store c t a b d).encode
  | .add c t a b d => (Record.mk .add c t a b d).encode
  | .sub c t a b d => (Record.mk .sub c t a b d).encode
  | .mul c t a b d => (Record.mk .mul c t a b d).encode
  | .div c t a b d => (Record.mk .div c t a b d).encode
  | .jump c d => (Record.mk .add c 15 0 15 d).encode
  | .data w => w

/-- One of the seven instructions of the hardware, not a pseudo-instruction of the assembler (R93). -/
def Instr.isHardware : Instr → Bool
  | .jump _ _ => false
  | .data _ => false
  | .halt _ _ _ _ _ => true
  | .load _ _ _ _ _ => true
  | .store _ _ _ _ _ => true
  | .add _ _ _ _ _ => true
  | .sub _ _ _ _ _ => true
  | .mul _ _ _ _ _ => true
  | .div _ _ _ _ _ => true

/-- The instruction the decoder reads from the `nbits` low bits of `w`, the bits above being 0. Every instruction is one
word and memory is addressed in words (R52, R91), so there are no bytes to lay out. -/
def decodeTableWord (nbits w : Nat) : Option Instr :=
  match decode (BitVec.ofNat 32 (w % 2 ^ nbits)) with
  | .ok i => some i
  | .error _ => none

end Sys2Proof
end

