-- ==== Sys2Proof/Machine/Flags.lean ====
section
/-! DEFINITION. The block alu: its operations and its condition-flag generator (spec/41_alu.md), and the predicate
test of the flags (spec/42_cpu_engine.md R173). All of it is combinational. -/

namespace Sys2Proof.Machine

/-- `trunc_div(a, b)`: the quotient rounded toward zero, `sign(a) * sign(b) * (|a| div |b|)` (R10). -/
def truncDiv (a b : Int) : Int := a.sign * b.sign * ((a.natAbs / b.natAbs : Nat) : Int)

/-- The result for an opcode (R141 to R145): operands read as signed, the exact result wrapped modulo 2^32; HALT, LOAD
and STORE reuse ADD; a division by zero gives `DIV_ZERO_RESULT`. -/
def aluResult (op : Opcode) (a b : Word) : Word :=
  match op with
  | .halt => wrap32 (sval a + sval b)
  | .load => wrap32 (sval a + sval b)
  | .store => wrap32 (sval a + sval b)
  | .add => wrap32 (sval a + sval b)
  | .sub => wrap32 (sval a - sval b)
  | .mul => wrap32 (sval a * sval b)
  | .div => if sval b = 0 then Config.divZeroResult else wrap32 (truncDiv (sval a) (sval b))

/-- M, Z or P: the sign of the result, exactly one of them (R146). -/
def signFlag (result : Word) : Flags :=
  if sval result < 0 then Flag.M else if sval result = 0 then Flag.Z else Flag.P

/-- The flags of an operation: the sign of the result, and V when DIV is attempted with a zero divisor and in no other
case (R146, R147). -/
def aluFlags (op : Opcode) (b result : Word) : Flags :=
  if op = .div ∧ sval b = 0 then signFlag result ||| Flag.V else signFlag result

/-- `execute(op, a, b) -> (result, flags)` (R140): total, it never raises (R148). -/
def aluExecute (op : Opcode) (a b : Word) : Word × Flags :=
  (aluResult op a b, aluFlags op b (aluResult op a b))

/-- The predicate check: the instruction executes iff `(FLAGS & cond) != 0` (R173). -/
def predicateHolds (flags cond : Flags) : Bool := flags &&& cond != Flag.never

end Sys2Proof.Machine
end

