-- ==== Sys2Proof/Machine/State.lean ====
section
/-! DEFINITION. The state of the machine (spec/10_state.md), the memory collaborator's words (spec/20_memory.md), the
host's pending inputs (spec/42_cpu_engine.md section 3), and the state right after reset (R37). -/

namespace Sys2Proof.Machine

/-- The kind of a memory access, as a BoundsError records it (R11, R33). -/
inductive AccessKind where
  | fetch | load | store
  deriving DecidableEq, Repr

/-- The FAULT register (R33, R290 to R293). -/
inductive FaultStatus where
  | noFault
  | decodingError (addr : Int) (word : Word)
  | boundsError (addr : Int) (access : AccessKind)
  deriving DecidableEq, Repr

/-- The engine's control state ENGINE (R34, R179). -/
inductive Engine where
  | idle | running | paused | haltedStop | faulted
  deriving DecidableEq, Repr

/-- What the host can do to the engine between two steps (R179 to R183, R320): call `run`, give the continue signal,
abort the run, reset the core. -/
inductive HostEvent where
  | run (startAddress : Int) (singleStep : Bool)
  | continueSignal
  | abort
  | reset
  deriving DecidableEq, Repr

/-- One event of the observation port (R178): the fetch address, the raw word, the decoded record. -/
structure Observation where
  addr : Int
  word : Word
  record : Record
  deriving DecidableEq, Repr

/-- One completed access on the memory port (R59, R67). -/
inductive BusAccess where
  | get (kind : AccessKind) (addr : Nat) (value : Word)
  | put (addr : Nat) (value : Word)
  deriving DecidableEq, Repr

/-- A memory word at a word address. The addressable unit is the word and the address space has no bytes (R52); log
entry 1. -/
abbrev WordCell := Nat × Word

/-- The memory collaborator's contents: the words that differ from `Config.unlistedWord`, addresses rising. -/
abbrev Memory := List WordCell

/-- The register file's 15 real cells: cell k is register k + 1, and the last is R15, the program counter. R0 is
hardwired and holds no state (R20, R21, R37). -/
abbrev RegFile := Vector Word 15

/-- The whole state. Fields `regs` to `singleStep` are the core's (R35), `mem` and `memSize` the memory collaborator's
(R50 to R54), `reservedBitFaults` the decoder's parameter (R89), `observed` and `bus` what the core has put out on its
observation port and its memory port, oldest first, and `host` the host's inputs still to come, one entry a turn,
`none` for a turn in which the host does nothing. -/
structure State where
  regs : RegFile
  flags : Flags
  halted : Bool
  fault : FaultStatus
  engine : Engine
  singleStep : Bool
  mem : Memory
  memSize : Nat
  reservedBitFaults : Bool
  observed : List Observation
  bus : List BusAccess
  host : List (Option HostEvent)
  deriving DecidableEq, Repr

/-- Why no step can be taken: the engine is not RUNNING (R179) and the host has no input left that could change that.
These are stuck states, not errors: the spec's own faults, DecodingError and BoundsError, are next states that record
them in FAULT (log entry 5). All four are raised by `step` alone, and all are safe: the spec takes no step there. -/
inductive Fault where
  /-- IDLE, before `run` or after an abort (R34, R183). Raised by `step`. Safe. -/
  | idle
  /-- PAUSED, waiting for the continue signal (R182). Raised by `step`. Safe. -/
  | paused
  /-- HALTED_STOP, the normal end of a run (R180, R184). Raised by `step`. Safe. -/
  | haltedStop
  /-- FAULTED, the abnormal end of a run (R33, R299). Raised by `step`. Safe. -/
  | faulted
  deriving DecidableEq, Repr

/-- Why an instruction is refused. -/
inductive Refusal where
  /-- The instruction has no meaning in this model yet. Raised by `exec`'s refused arms only (there is none). Safe. -/
  | notModelled (mnemonic : String)
  deriving DecidableEq, Repr

/-- The state right after reset (R37, R320). Every core field is the value R37 gives; the memory size and contents, the
decoder's parameter and the empty records and inputs are the model's (log entries 2, 3, 4, 6, 8 and 9). -/
def State.reset : State where
  regs := Vector.replicate 15 0#32
  flags := Config.resetFlags
  halted := false
  fault := .noFault
  engine := .idle
  singleStep := false
  mem := []
  memSize := Config.memSize
  reservedBitFaults := Config.reservedBitFaults
  observed := []
  bus := []
  host := []

end Sys2Proof.Machine
end

