-- ==== Sys2Proof/Machine/Ops.lean ====
section
/-! DEFINITION. The named operations over registers, the program counter, memory, the two output ports and the FAULT
register, which every meaning is written with. -/

namespace Sys2Proof.Machine

/-! ## Register file (R20 to R23) -/

/-- `x[i]`: register 0 always reads zero (R21), any other reads its cell. -/
def RegFile.read (r : RegFile) (i : RegIdx) : Word :=
  if h : i.val = 0 then 0#32 else r[i.val - 1]

/-- `x[i] <- v`: a write of register 0 changes nothing (R21), any other replaces the whole cell (R22). -/
def RegFile.write (r : RegFile) (i : RegIdx) (v : Word) : RegFile :=
  if h : i.val = 0 then r else r.set (i.val - 1) v

/-- `x[i]` in a state. -/
def State.readReg (s : State) (i : RegIdx) : Word := RegFile.read s.regs i

/-- `x[i] <- v` in a state. -/
def State.writeReg (s : State) (i : RegIdx) (v : Word) : State := { s with regs := RegFile.write s.regs i v }

/-- `pc` names `x[15]` (R11, R27). -/
def State.pc (s : State) : Word := s.readReg 15

/-- The PC increment, modulo 2^32 (R29). -/
def State.incPc (s : State) : State := s.writeReg 15 (wrap32 (uval s.pc + 1))

/-! ## The other core fields -/

/-- `FLAGS <- f` (R174). -/
def State.setFlags (s : State) (f : Flags) : State := { s with flags := f }

/-- `HALTED <- true` (R200). -/
def State.setHalted (s : State) : State := { s with halted := true }

/-- `ENGINE <- e` (R179). -/
def State.setEngine (s : State) (e : Engine) : State := { s with engine := e }

/-- `SINGLE_STEP <- b` (R181). -/
def State.setSingleStep (s : State) (b : Bool) : State := { s with singleStep := b }

/-- The host's remaining inputs. -/
def State.setHost (s : State) (h : List (Option HostEvent)) : State := { s with host := h }

/-- Taking a fault, the machine's only exception: it is recorded in FAULT and the engine stops in FAULTED; nothing is
saved, no mode changes and control goes to no handler (R290, R292, R298). There is no return from it (R299). -/
def State.raiseFault (s : State) (c : FaultStatus) : State := { s with fault := c, engine := .faulted }

/-- The cause code of the FAULT register (R293). -/
def FaultStatus.code : FaultStatus → Nat
  | .noFault => 0
  | .decodingError _ _ => 1
  | .boundsError _ .fetch => 2
  | .boundsError _ .load => 3
  | .boundsError _ .store => 4

/-! ## Memory words (R50 to R55) -/

/-- The word at an address: the latest one put there, else the contents memory started with (R62). -/
def Memory.read : Memory → Nat → Word
  | [], _ => Config.unlistedWord
  | (a, v) :: m, b => if a = b then v else Memory.read m b

/-- No cell for this address. -/
def Memory.erase (m : Memory) (a : Nat) : Memory := m.filter (fun c => c.1 != a)

/-- A cell put in its place in the rising order. -/
def Memory.insertCell : Memory → Nat → Word → Memory
  | [], b, v => [(b, v)]
  | (a, w) :: m, b, v => if a < b then (a, w) :: Memory.insertCell m b v else (b, v) :: (a, w) :: m

/-- The memory after a word is put at an address; a word equal to what an unlisted address reads as is not listed. -/
def Memory.write (m : Memory) (a : Nat) (v : Word) : Memory :=
  if v = Config.unlistedWord then Memory.erase m a else Memory.insertCell (Memory.erase m a) a v

/-- The canonical form: addresses strictly rising, and no cell equal to what an unlisted address reads as. -/
def Memory.wf : Memory → Bool
  | [] => true
  | (a, v) :: m => v != Config.unlistedWord && m.all (fun c => decide (a < c.1)) && Memory.wf m

/-- The valid addresses are 0 to `MEM_SIZE - 1`; an address is a signed value, and a negative one is out of range
(R51, R54). -/
def State.inRange (s : State) (a : Int) : Bool := decide (0 ≤ a) && decide (a < s.memSize)

/-- One more completed access on the memory port (R59, R67). -/
def State.logBus (s : State) (x : BusAccess) : State := { s with bus := s.bus ++ [x] }

/-- `M[a] <- v`, whatever the port records. -/
def State.setWord (s : State) (a : Nat) (v : Word) : State := { s with mem := Memory.write s.mem a v }

/-- `MemRead(addr, 1)` (R54): the word and the state after the access, or `none`, with no access performed, when the
address is out of range. -/
def State.memGet (s : State) (kind : AccessKind) (a : Int) : Option (Word × State) :=
  if s.inRange a then
    some (Memory.read s.mem a.toNat, s.logBus (.get kind a.toNat (Memory.read s.mem a.toNat)))
  else none

/-- `MemWrite(addr, 1, v)` (R54): the state after the access, or `none`, with no access performed, when the address is
out of range. -/
def State.memPut (s : State) (a : Int) (v : Word) : Option State :=
  if s.inRange a then some ((s.setWord a.toNat v).logBus (.put a.toNat v)) else none

/-! ## The observation port (R178) -/

/-- `emit Observe(addr, word, instr)`: no effect on any other state. -/
def State.observe (s : State) (o : Observation) : State := { s with observed := s.observed ++ [o] }

/-! ## Outcomes -/

/-- Apply a change to the next state of an outcome; a fault or a refusal stays as it is. -/
def mapNext (f : State → State) : Host.Outcome State Fault Refusal → Host.Outcome State Fault Refusal
  | .next s => .next (f s)
  | .fault r => .fault r
  | .refused r => .refused r

end Sys2Proof.Machine
end

