-- ==== Sys2Proof/Machine/Operands.lean ====
section
/-! DEFINITION. The one operand form every instruction has (spec/30_encoding.md R87, spec/43_instructions.md R208). -/

namespace Sys2Proof.Machine

/-- Operand 1: `x[rs1]` (R87). R15 reads the address of the executing instruction, since the read comes before the
PC increment (R23, R174). -/
def State.operand1 (s : State) (rs1 : RegIdx) : Word := s.readReg rs1

/-- Operand 2: `wrap32(s(x[rs2]) + offset)` (R87, R174). The offset is not scaled or shifted (R83). -/
def State.operand2 (s : State) (rs2 : RegIdx) (offset : Int) : Word := wrap32 (sval (s.readReg rs2) + offset)

end Sys2Proof.Machine
end

