-- ==== Sys2Proof/Machine/Execute.lean ====
section
/-! DEFINITION. The part of a step that every instruction shares (spec/42_cpu_engine.md R173, R174): the predicate gate
and the execute phase. -/

namespace Sys2Proof.Machine

/-- The predicate gate (R173): when the predicate fails the step only advances the PC. -/
def gate (cond : Flags) (s : State) (body : State → Host.Outcome State Fault Refusal) :
    Host.Outcome State Fault Refusal :=
  if predicateHolds s.flags cond then body s else .next s.incPc

/-- The ALU's result for this state: operands are read before the PC increment (R174). -/
def State.result (s : State) (op : Opcode) (rs1 rs2 : RegIdx) (offset : Int) : Word :=
  (aluExecute op (s.operand1 rs1) (s.operand2 rs2 offset)).1

/-- The state after the execute phase: the PC incremented, then FLAGS set to the ALU's flags (R174). -/
def State.issue (s : State) (op : Opcode) (rs1 rs2 : RegIdx) (offset : Int) : State :=
  s.incPc.setFlags (aluExecute op (s.operand1 rs1) (s.operand2 rs2 offset)).2

/-- The effective address of LOAD and STORE: the ALU result read as signed (R51, R208). -/
def State.effectiveAddress (s : State) (op : Opcode) (rs1 rs2 : RegIdx) (offset : Int) : Int :=
  sval (s.result op rs1 rs2 offset)

/-- The whole of an arithmetic instruction: the result goes to the target register, where it replaces the incremented
PC if the target is R15 (R175, R177). -/
def arithmetic (op : Opcode) (cond : Flags) (rt rs1 rs2 : RegIdx) (offset : Int) (s : State) :
    Host.Outcome State Fault Refusal :=
  gate cond s (fun s => .next ((s.issue op rs1 rs2 offset).writeReg rt (s.result op rs1 rs2 offset)))

end Sys2Proof.Machine
end

