-- ==== Sys2Proof/Machine/Arithmetic.lean ====
section
/-! DEFINITION. ADD, SUB, MUL and DIV (spec/43_instructions.md section 3). -/

namespace Sys2Proof.Machine

/-- ADD (R203). -/
def execAdd (cond : Flags) (rt rs1 rs2 : RegIdx) (offset : Int) (s : State) : Host.Outcome State Fault Refusal :=
  arithmetic .add cond rt rs1 rs2 offset s

/-- SUB (R204). -/
def execSub (cond : Flags) (rt rs1 rs2 : RegIdx) (offset : Int) (s : State) : Host.Outcome State Fault Refusal :=
  arithmetic .sub cond rt rs1 rs2 offset s

/-- MUL (R205). -/
def execMul (cond : Flags) (rt rs1 rs2 : RegIdx) (offset : Int) (s : State) : Host.Outcome State Fault Refusal :=
  arithmetic .mul cond rt rs1 rs2 offset s

/-- DIV (R206). -/
def execDiv (cond : Flags) (rt rs1 rs2 : RegIdx) (offset : Int) (s : State) : Host.Outcome State Fault Refusal :=
  arithmetic .div cond rt rs1 rs2 offset s

end Sys2Proof.Machine
end

