-- ==== Sys2Proof/Machine/Control.lean ====
section
/-! DEFINITION. HALT (spec/43_instructions.md section 1). -/

namespace Sys2Proof.Machine

/-- HALT (R200): FLAGS are set from the address arithmetic, HALTED becomes true, no register is written but the PC
increment; `rt` is ignored, which is why it is not used here. -/
def execHalt (cond : Flags) (_rt rs1 rs2 : RegIdx) (offset : Int) (s : State) : Host.Outcome State Fault Refusal :=
  gate cond s (fun s => .next (s.issue .halt rs1 rs2 offset).setHalted)

end Sys2Proof.Machine
end

