-- ==== Sys2Proof/Machine/LoadStore.lean ====
section
/-! DEFINITION. LOAD and STORE (spec/43_instructions.md section 2). -/

namespace Sys2Proof.Machine

/-- LOAD (R201): an address out of range raises BoundsError after the PC and FLAGS have been updated and before the
register is written (R175, R292); the word is placed unchanged (R55); a LOAD into R0 still reads (R21). -/
def execLoad (cond : Flags) (rt rs1 rs2 : RegIdx) (offset : Int) (s : State) : Host.Outcome State Fault Refusal :=
  gate cond s (fun s =>
    match (s.issue .load rs1 rs2 offset).memGet .load (s.effectiveAddress .load rs1 rs2 offset) with
    | none =>
      .next ((s.issue .load rs1 rs2 offset).raiseFault (.boundsError (s.effectiveAddress .load rs1 rs2 offset) .load))
    | some (v, t) => .next (t.writeReg rt v))

/-- STORE (R202): the data register is read after the PC increment (R175); an address out of range raises BoundsError
after the PC and FLAGS have been updated, and memory is not written (R292). -/
def execStore (cond : Flags) (rt rs1 rs2 : RegIdx) (offset : Int) (s : State) : Host.Outcome State Fault Refusal :=
  gate cond s (fun s =>
    match (s.issue .store rs1 rs2 offset).memPut (s.effectiveAddress .store rs1 rs2 offset)
        ((s.issue .store rs1 rs2 offset).readReg rt) with
    | none =>
      .next ((s.issue .store rs1 rs2 offset).raiseFault
        (.boundsError (s.effectiveAddress .store rs1 rs2 offset) .store))
    | some t => .next t)

end Sys2Proof.Machine
end

