-- ==== Sys2Proof/Machine/Pseudo.lean ====
section
/-! DEFINITION. What the words of the assembler's pseudo-instructions JUMP and DATA do when they are executed
(spec/30_encoding.md R93, spec/44_assembler.md R250, R260). Decoding yields neither (log entry 11). -/

namespace Sys2Proof.Machine

/-- JUMP: the ADD into R15 from `r0` and `r15` that the assembler writes for it (R260). -/
def execJump (cond : Flags) (displacement : Int) (s : State) : Host.Outcome State Fault Refusal :=
  arithmetic .add cond 15 0 15 displacement s

/-- The meaning of a decoded record: the arm of R176 for its opcode. -/
def execRecord (r : Record) (s : State) : Host.Outcome State Fault Refusal :=
  match r.opcode with
  | .halt => execHalt r.cond r.rt r.rs1 r.rs2 r.offset s
  | .load => execLoad r.cond r.rt r.rs1 r.rs2 r.offset s
  | .store => execStore r.cond r.rt r.rs1 r.rs2 r.offset s
  | .add => execAdd r.cond r.rt r.rs1 r.rs2 r.offset s
  | .sub => execSub r.cond r.rt r.rs1 r.rs2 r.offset s
  | .mul => execMul r.cond r.rt r.rs1 r.rs2 r.offset s
  | .div => execDiv r.cond r.rt r.rs1 r.rs2 r.offset s

/-- A DATA word reached by the PC: it executes as the instruction its bits name (R89, R93), and when they name none it
raises DecodingError at the address it stands at (R88, R290). -/
def execData (word : Word) (s : State) : Host.Outcome State Fault Refusal :=
  match decodeRecord s.reservedBitFaults word with
  | .ok r => execRecord r s
  | .error _ => .next (s.raiseFault (.decodingError (sval s.pc) word))

end Sys2Proof.Machine
end

