-- ==== Sys2Proof/Machine/Dispatch.lean ====
section
/-! DEFINITION. One arm per row of the opcode table: which meaning an instruction has. -/

namespace Sys2Proof.Machine

def exec (i : Instr) (s : State) : Host.Outcome State Fault Refusal :=
  match i with
  | .halt cond rt rs1 rs2 offset => Sys2Proof.Machine.execHalt cond rt rs1 rs2 offset s
  | .load cond rt rs1 rs2 offset => Sys2Proof.Machine.execLoad cond rt rs1 rs2 offset s
  | .store cond rt rs1 rs2 offset => Sys2Proof.Machine.execStore cond rt rs1 rs2 offset s
  | .add cond rt rs1 rs2 offset => Sys2Proof.Machine.execAdd cond rt rs1 rs2 offset s
  | .sub cond rt rs1 rs2 offset => Sys2Proof.Machine.execSub cond rt rs1 rs2 offset s
  | .mul cond rt rs1 rs2 offset => Sys2Proof.Machine.execMul cond rt rs1 rs2 offset s
  | .div cond rt rs1 rs2 offset => Sys2Proof.Machine.execDiv cond rt rs1 rs2 offset s
  | .jump cond displacement => Sys2Proof.Machine.execJump cond displacement s
  | .data word => Sys2Proof.Machine.execData word s

end Sys2Proof.Machine
end

