-- ==== Sys2Proof/Machine/Engine.lean ====
section
/-! DEFINITION. The block cpu_engine around the execution of one instruction (spec/42_cpu_engine.md): fetch, decode and
the observation event; the control state after a step; what each event of the host does; loading an image
(spec/70_reset_and_hazards.md R324). -/

namespace Sys2Proof.Machine

/-- The phases before the predicate check (R171, R172, R178): fetch, decode, observe. `.error t` is a fault taken with
nothing else changed; `.ok (r, t)` is the decoded record and the state after its observation event. -/
def State.fetchDecode (s : State) : Except State (Record × State) :=
  match s.memGet .fetch (sval s.pc) with
  | none => .error (s.raiseFault (.boundsError (sval s.pc) .fetch))
  | some (word, t) =>
    match decodeRecord s.reservedBitFaults word with
    | .error _ => .error (t.raiseFault (.decodingError (sval s.pc) word))
    | .ok r => .ok (r, t.observe ⟨sval s.pc, word, r⟩)

/-- ENGINE after a step (R179): FAULTED if the step faulted, else HALTED_STOP if HALTED is now true, else PAUSED in
single-step mode, else RUNNING. -/
def State.afterStep (s : State) : State :=
  if s.engine = .faulted then s
  else if s.halted then s.setEngine .haltedStop
  else if s.singleStep then s.setEngine .paused
  else s.setEngine .running

/-- Reset (R320): every piece of the core's state takes the value of R37, and the memory collaborator is not touched (log
entry 12). -/
def State.coreReset (s : State) : State :=
  { s with
    regs := State.reset.regs
    flags := State.reset.flags
    halted := State.reset.halted
    fault := State.reset.fault
    engine := State.reset.engine
    singleStep := State.reset.singleStep }

/-- `run(start_address, single_step)` from IDLE (R179, R181): the PC and SINGLE_STEP are set, and the engine runs, or
stops at once if HALTED is true. DESIGN CHOICE (log entry 24): a start address outside memory whose `wrap32` is inside it
(2^32, say) starts at the wrapped address and its first fetch does not fault, where R181 says both that the PC takes
`wrap32(start_address)` and that an address outside memory makes the first fetch raise BoundsError. -/
def State.startRun (s : State) (start : Int) (singleStep : Bool) : State :=
  ((s.writeReg 15 (wrap32 start)).setSingleStep singleStep).setEngine (if s.halted then .haltedStop else .running)

/-- An event of the host (R179). An event for which R179 has no row in the present control state does nothing (log
entry 7). -/
def State.hostEvent (s : State) (e : HostEvent) : State :=
  match e with
  | .reset => s.coreReset
  | .run start ss => if s.engine = .idle then s.startRun start ss else s
  | .continueSignal => if s.engine = .paused then s.setEngine .running else s
  | .abort => if s.engine = .running ∨ s.engine = .paused then s.setEngine .idle else s

/-- Why the engine takes no step of its own: every control state but RUNNING (R179). -/
def Engine.stopped : Engine → Option Fault
  | .running => none
  | .idle => some .idle
  | .paused => some .paused
  | .haltedStop => some .haltedStop
  | .faulted => some .faulted

/-- The words of an image put at consecutive addresses from `a` on. -/
def Memory.load : Memory → Nat → List Word → Memory
  | m, _, [] => m
  | m, a, w :: ws => Memory.load (Memory.write m a w) (a + 1) ws

/-- Boot (R324, R271): reset, give memory its size and the image with word k at address k, then let the host call
`run(start, single_step)`. An image longer than memory is taken whole, its words from `memSize` on where no access reaches
them: DESIGN CHOICE (log entry 27). -/
def State.boot (memSize : Nat) (image : List Word) (start : Int) (singleStep : Bool) : State :=
  { State.reset with
    mem := Memory.load State.reset.mem 0 image
    memSize := memSize
    host := [some (.run start singleStep)] }

/-- A state in which the very next step fetches `word` at the PC and runs it: the word stands at the PC (which is set to
0 if it was outside memory), HALTED and FAULT are clear, the engine is RUNNING, and no host input comes first. -/
def State.placed (s : State) (word : Word) : State :=
  if s.inRange (sval s.pc) then
    { s.setWord (sval s.pc).toNat word with halted := false, fault := .noFault, engine := .running, host := [] }
  else
    { (s.writeReg 15 0#32).setWord 0 word with
      memSize := max s.memSize 1, halted := false, fault := .noFault, engine := .running, host := [] }

end Sys2Proof.Machine
end

