-- ==== Sys2Proof/Machine/Step.lean ====
section
/-! DEFINITION. One step of the machine (spec/42_cpu_engine.md R176, R179), and where it fetches its next word. -/

namespace Sys2Proof.Machine

/-- One engine step, taken only in RUNNING (R176): fetch, decode, observe, the instruction's own meaning (which begins
with the predicate check), then the move of ENGINE (R179). -/
def instructionStep (s : State) : Host.Outcome State Fault Refusal :=
  match s.fetchDecode with
  | .error t => .next t
  | .ok (r, t) => mapNext State.afterStep (exec r.toInstr t)

/-- One turn: the host's next input, if it has one for this turn, else an engine step if the engine is RUNNING. When it
is not and the host has no input left, no step can be taken, and the outcome says why. -/
def step (s : State) : Host.Outcome State Fault Refusal :=
  match s.host with
  | some e :: rest => .next ((s.setHost rest).hostEvent e)
  | none :: rest =>
    match s.engine.stopped with
    | none => instructionStep (s.setHost rest)
    | some _ => .next (s.setHost rest)
  | [] =>
    match s.engine.stopped with
    | none => instructionStep s
    | some f => .fault f

/-- The state with this word where `step` fetches next; it stands for the host's loading and starting of a program (log
entry 10). -/
def State.withFetchWord (s : State) (nbits w : Nat) : State := s.placed (BitVec.ofNat 32 (w % 2 ^ nbits))

end Sys2Proof.Machine
end

