-- ==== Sys2Proof/Machine/AsmText.lean ====
section
/-! DEFINITION. Names and text forms of the assembler (spec/40_bit_codec.md R120, R121, spec/44_assembler.md R245, R246):
the fixed name tables, the rendering of numbers, registers, predicates and records. Texts are lists of characters. -/

namespace Sys2Proof.Asm

/-! ## Lookup tables (R121) -/

/-- The mnemonic of an opcode (R85). -/
def opcodeName : Opcode → Text
  | .halt => ['H', 'A', 'L', 'T']
  | .load => ['L', 'O', 'A', 'D']
  | .store => ['S', 'T', 'O', 'R', 'E']
  | .add => ['A', 'D', 'D']
  | .sub => ['S', 'U', 'B']
  | .mul => ['M', 'U', 'L']
  | .div => ['D', 'I', 'V']

/-- The seven opcode names; SHL, SHR, JUMP and DATA are not among them (R121, R247). -/
def lookupOpcode (t : Text) : Option Opcode :=
  [Opcode.halt, .load, .store, .add, .sub, .mul, .div].find? (fun o => opcodeName o == t)

/-- The word NEVER (R245). -/
def neverName : Text := ['N', 'E', 'V', 'E', 'R']
/-- The word ALWAYS (R245). -/
def alwaysName : Text := ['A', 'L', 'W', 'A', 'Y', 'S']

/-- The flag of a predicate letter: N and M both mean Negative (R245). -/
def predicateLetter : Char → Option Flags
  | 'N' => some Flag.M
  | 'M' => some Flag.M
  | 'Z' => some Flag.Z
  | 'P' => some Flag.P
  | 'V' => some Flag.V
  | _ => none

/-- The union of the flags of some letters (R245). -/
def predicateLetters : Text → Option Flags
  | [] => some Flag.never
  | c :: t => (predicateLetter c).bind (fun f => (predicateLetters t).map (fun g => f ||| g))

/-- A predicate word: ALWAYS, NEVER, or one or more letters (R245). -/
def lookupPredicate (t : Text) : Option Flags :=
  if t = alwaysName then some Flag.always
  else if t = neverName then some Flag.never
  else if t = [] then none
  else predicateLetters t

/-! ## Numbers -/

/-- The digit character of a number below ten. -/
def digitChar (n : Nat) : Char := Char.ofNat (48 + n)

/-- The number of a digit character, decimal or hexadecimal. -/
def digitValue (c : Char) : Nat :=
  if c.toNat < 58 then c.toNat - 48 else if c.toNat < 71 then c.toNat - 55 else c.toNat - 87

/-- A digit string read in a base, from a value already read. -/
def readDigits (base : Nat) : Nat → Text → Nat
  | acc, [] => acc
  | acc, c :: t => readDigits base (base * acc + digitValue c) t

/-- Decimal digits, most significant first; the first argument bounds their number. -/
def natDigits : Nat → Nat → Text
  | 0, n => [digitChar (n % 10)]
  | fuel + 1, n => if n < 10 then [digitChar n] else natDigits fuel (n / 10) ++ [digitChar (n % 10)]

/-- A natural number in decimal. -/
def natText (n : Nat) : Text := natDigits n n

/-- An integer in signed decimal, with a leading `-` when negative (R120). -/
def intText (i : Int) : Text := if i < 0 then '-' :: natText i.natAbs else natText i.natAbs

/-! ## Registers -/

/-- `r0` to `r15` (R120, R246). -/
def regName (i : RegIdx) : Text := 'r' :: natText i.val

/-- A register name: `r0` to `r15`, `zero` for register 0, `pc` for register 15 (R24, R246). -/
def lookupRegister (t : Text) : Option RegIdx :=
  if t = ['z', 'e', 'r', 'o'] then some 0
  else if t = ['p', 'c'] then some 15
  else (List.finRange 16).find? (fun i => regName i == t)

/-! ## Rendering (R120) -/

/-- The COND part of a rendering: NEVER, or the letters of the set flags in the order M, Z, P, V. -/
def condLetters (f : Flags) : Text :=
  if f = Flag.never then neverName
  else
    (if f.getLsbD 0 then ['M'] else []) ++ (if f.getLsbD 1 then ['Z'] else []) ++
      (if f.getLsbD 2 then ['P'] else []) ++ (if f.getLsbD 3 then ['V'] else [])

/-- The `/COND` suffix, omitted for ALWAYS. -/
def condSuffix (f : Flags) : Text := if f = Flag.always then [] else '/' :: condLetters f

/-- The operand part, `rT,rS1,rS2[offset]`. -/
def operandText (rt rs1 rs2 : RegIdx) (offset : Int) : Text :=
  regName rt ++ ',' :: regName rs1 ++ ',' :: regName rs2 ++ '[' :: intText offset ++ [']']

/-- The rendering of a record: `OPCODE/COND  rT,rS1,rS2[offset]`, two spaces before the operands (R120). -/
def render (r : Record) : Text :=
  opcodeName r.opcode ++ condSuffix r.cond ++ ' ' :: ' ' :: operandText r.rt r.rs1 r.rs2 r.offset

end Sys2Proof.Asm
end

