-- ==== Sys2Proof/Machine/AsmParser.lean ====
section
/-! DEFINITION. The assembler's tokens, its four line shapes and the parse of one line (spec/44_assembler.md sections 2
and 3). A scanner takes the text still to be read and gives what it read and the rest. Every token is read greedily: in
each pattern the character after a token is one the token cannot hold, so the greedy reading is the only one. -/

namespace Sys2Proof.Asm

/-! ## Characters (R242) -/

def isBlank (c : Char) : Bool := c == ' ' || c == '\t'
/-- What is ignored at the end of a line. -/
def isTrailing (c : Char) : Bool := isBlank c || c == '\r'
def isUpper (c : Char) : Bool := decide ('A' ≤ c) && decide (c ≤ 'Z')
def isLower (c : Char) : Bool := decide ('a' ≤ c) && decide (c ≤ 'z')
def isDigit (c : Char) : Bool := decide ('0' ≤ c) && decide (c ≤ '9')
def isHexDigit (c : Char) : Bool :=
  isDigit c || (decide ('A' ≤ c) && decide (c ≤ 'F')) || (decide ('a' ≤ c) && decide (c ≤ 'f'))
def isLabelStart (c : Char) : Bool := isUpper c || isLower c
def isLabelChar (c : Char) : Bool := isLabelStart c || isDigit c || c == '_'
def isRegChar (c : Char) : Bool := isLower c || isDigit c

/-! ## Tokens (R242) -/

/-- A line without its trailing spaces, tabs and carriage return (R242; log entry 14). -/
def trimEnd (t : Text) : Text := (t.reverse.dropWhile isTrailing).reverse

/-- `_`: zero or more blanks. -/
def skipBlanks (t : Text) : Text := t.dropWhile isBlank

/-- `__`: one or more blanks. -/
def someBlanks : Text → Option Text
  | c :: t => if isBlank c then some (skipBlanks t) else none
  | [] => none

/-- One given character. -/
def expect (x : Char) : Text → Option Text
  | c :: t => if c = x then some t else none
  | [] => none

/-- One character of a kind, then as many of another as there are. -/
def scan (start rest : Char → Bool) : Text → Option (Text × Text)
  | c :: t => if start c then some (c :: t.takeWhile rest, t.dropWhile rest) else none
  | [] => none

/-- `WORD`: `[A-Z]+`. -/
def scanWord : Text → Option (Text × Text) := scan isUpper isUpper
/-- `REGTOK`: `[a-z][a-z0-9]*`. -/
def scanReg : Text → Option (Text × Text) := scan isLower isRegChar
/-- `LABEL`: `[A-Za-z][A-Za-z0-9_]*`. -/
def scanLabel : Text → Option (Text × Text) := scan isLabelStart isLabelChar
/-- `[0-9]+`. -/
def scanDigits : Text → Option (Text × Text) := scan isDigit isDigit

/-- `OFFSET`: `-?[0-9]+`, signed decimal. -/
def scanOffset : Text → Option (Int × Text)
  | '-' :: t => (scanDigits t).map (fun p => (-(readDigits 10 0 p.1 : Int), p.2))
  | t => (scanDigits t).map (fun p => ((readDigits 10 0 p.1 : Int), p.2))

/-- `0x[0-9A-Fa-f]+`. -/
def scanHex : Text → Option (Int × Text)
  | '0' :: 'x' :: t => (scan isHexDigit isHexDigit t).map (fun p => ((readDigits 16 0 p.1 : Int), p.2))
  | _ => none

/-- `VALUE`: `-?[0-9]+` or `0x[0-9A-Fa-f]+`; the decimal reading of `0x…` would stop before the `x`, which nothing may
follow, so the hexadecimal one is tried first. -/
def scanValue (t : Text) : Option (Int × Text) :=
  match scanHex t with
  | some p => some p
  | none => scanOffset t

/-- `PREFIX`: an optional label, with its colon right behind it, between blanks (R243). -/
def scanLinePrefix (t : Text) : Option Text × Text :=
  match scanLabel (skipBlanks t) with
  | some (l, ':' :: rest) => (some l, skipBlanks rest)
  | _ => (none, skipBlanks t)

/-- `SUFFIX`: an optional comment, up to the end of the line (R243): `some none` is no comment. -/
def scanLineSuffix (t : Text) : Option (Option Text) :=
  match skipBlanks t with
  | [] => some none
  | '#' :: c => some (some c)
  | _ => none

/-- `("/" WORD)?`. -/
def scanPredicate : Text → Option (Option Text × Text)
  | '/' :: t => (scanWord t).map (fun p => (some p.1, p.2))
  | t => some (none, t)

/-- `(REGTOK _ "," _)?`. -/
def scanTarget (t : Text) : Option Text × Text :=
  match scanReg t with
  | some (r, rest) =>
    match expect ',' (skipBlanks rest) with
    | some rest' => (some r, skipBlanks rest')
    | none => (none, t)
  | none => (none, t)

/-! ## The four shapes (R241, R244, R249, R251, R252) -/

/-- A line of the FULL shape, before its names are looked up. -/
structure FullShape where
  label : Option Text
  op : Text
  pred : Option Text
  rt : Text
  rs1 : Text
  rs2 : Text
  offset : Int
  comment : Option Text
  deriving DecidableEq, Repr

/-- `WORD ("/" WORD)? __ REGTOK _ "," _ REGTOK _ "," _ REGTOK _ "[" _ OFFSET _ "]" SUFFIX` after the prefix (R244). -/
def matchFull (line : Text) : Option FullShape := do
  let (label, t) := scanLinePrefix line
  let (op, t) ← scanWord t
  let (pred, t) ← scanPredicate t
  let t ← someBlanks t
  let (rt, t) ← scanReg t
  let t ← expect ',' (skipBlanks t)
  let (rs1, t) ← scanReg (skipBlanks t)
  let t ← expect ',' (skipBlanks t)
  let (rs2, t) ← scanReg (skipBlanks t)
  let t ← expect '[' (skipBlanks t)
  let (offset, t) ← scanOffset (skipBlanks t)
  let t ← expect ']' (skipBlanks t)
  let comment ← scanLineSuffix t
  return { label, op, pred, rt, rs1, rs2, offset, comment }

/-- A line of the DATA shape. -/
structure DataShape where
  label : Option Text
  value : Option Int
  comment : Option Text
  deriving DecidableEq, Repr

/-- `"DATA" (__ VALUE)? SUFFIX` after the prefix (R249). -/
def matchData (line : Text) : Option DataShape := do
  let (label, t) := scanLinePrefix line
  let (op, t) ← scanWord t
  if op = ['D', 'A', 'T', 'A'] then
    match (someBlanks t).bind scanValue with
    | some (v, t) =>
      let comment ← scanLineSuffix t
      return { label, value := some v, comment }
    | none =>
      let comment ← scanLineSuffix t
      return { label, value := none, comment }
  else none

/-- The operations of the SYMBOLIC shape (R251). -/
inductive SymOp where
  | load | store | jump
  deriving DecidableEq, Repr

/-- `"LOAD" | "STORE" | "JUMP"`. -/
def lookupSymOp (t : Text) : Option SymOp :=
  if t = opcodeName .load then some .load
  else if t = opcodeName .store then some .store
  else if t = ['J', 'U', 'M', 'P'] then some .jump
  else none

/-- A line of the SYMBOLIC shape, before its names are looked up. -/
structure SymbolicShape where
  label : Option Text
  op : SymOp
  pred : Option Text
  target : Option Text
  symbol : Text
  comment : Option Text
  deriving DecidableEq, Repr

/-- `("LOAD" | "STORE" | "JUMP") ("/" WORD)? __ (REGTOK _ "," _)? LABEL SUFFIX` after the prefix (R251). -/
def matchSymbolic (line : Text) : Option SymbolicShape := do
  let (label, t) := scanLinePrefix line
  let (name, t) ← scanWord t
  let op ← lookupSymOp name
  let (pred, t) ← scanPredicate t
  let t ← someBlanks t
  let (target, t) := scanTarget t
  let (symbol, t) ← scanLabel t
  let comment ← scanLineSuffix t
  return { label, op, pred, target, symbol, comment }

/-- `PREFIX SUFFIX` (R252): the label and the comment. -/
def matchComment (line : Text) : Option (Option Text × Option Text) := do
  let (label, t) := scanLinePrefix line
  let comment ← scanLineSuffix t
  return (label, comment)

/-! ## The parse of a line (R253) -/

/-- The errors of one line (R265). `rangeError` holds the value out of range; `lookupError` the unknown name. -/
inductive AsmError where
  | syntaxError
  | lookupError (name : Text)
  | rangeError (value : Int)
  | duplicateLabel (label : Text)
  | unresolvedLabel (symbol : Text)
  deriving DecidableEq, Repr

/-- A parsed line, one kind per shape, each with only its own fields (R253). -/
inductive Line where
  | full (label : Option Text) (record : Record) (comment : Option Text)
  | data (label : Option Text) (word : Word) (comment : Option Text)
  | symbolic (label : Option Text) (op : SymOp) (cond : Flags) (predText : Option Text) (target : Option RegIdx)
      (symbol : Text) (comment : Option Text)
  | comment (label : Option Text) (comment : Option Text)
  deriving DecidableEq, Repr

/-- The label a line carries, if any (R255). -/
def Line.label : Line → Option Text
  | .full l _ _ => l
  | .data l _ _ => l
  | .symbolic l _ _ _ _ _ _ => l
  | .comment l _ => l

/-- Every line but a COMMENT occupies exactly one word (R255). -/
def Line.occupies : Line → Bool
  | .full _ _ _ => true
  | .data _ _ _ => true
  | .symbolic _ _ _ _ _ _ _ => true
  | .comment _ _ => false

/-- Lookup with its error (R121, R265). -/
def need {α : Type} (name : Text) : Option α → Except AsmError α
  | some a => .ok a
  | none => .error (.lookupError name)

/-- The condition of an optional predicate; absent means ALWAYS (R245). -/
def needPredicate : Option Text → Except AsmError Flags
  | none => .ok Flag.always
  | some p => need p (lookupPredicate p)

/-- The record of a FULL line: opcode, predicate, registers, then the offset's range (R247, R248). Which of several
errors of a line is reported is DESIGN CHOICE, log entry 13. -/
def FullShape.line (f : FullShape) : Except AsmError Line := do
  let opcode ← need f.op (lookupOpcode f.op)
  let cond ← needPredicate f.pred
  let rt ← need f.rt (lookupRegister f.rt)
  let rs1 ← need f.rs1 (lookupRegister f.rs1)
  let rs2 ← need f.rs2 (lookupRegister f.rs2)
  if offsetInRange f.offset then
    return .full f.label ⟨opcode, cond, rt, rs1, rs2, f.offset⟩ f.comment
  else .error (.rangeError f.offset)

/-- The word of a DATA line: an absent value is 0, any other must be in -2^31 to 2^32 - 1 (R250). -/
def DataShape.line (d : DataShape) : Except AsmError Line :=
  match d.value with
  | none => .ok (.data d.label 0#32 d.comment)
  | some v =>
    if -2147483648 ≤ v ∧ v ≤ 4294967295 then .ok (.data d.label (wrap32 v) d.comment)
    else .error (.rangeError v)

/-- A SYMBOLIC line: LOAD and STORE must have a target and JUMP must not (R251), then the lookups. -/
def SymbolicShape.line (y : SymbolicShape) : Except AsmError Line :=
  match y.op, y.target with
  | .jump, some _ => .error .syntaxError
  | .jump, none => do
    let cond ← needPredicate y.pred
    return .symbolic y.label .jump cond y.pred none y.symbol y.comment
  | .load, none => .error .syntaxError
  | .store, none => .error .syntaxError
  | .load, some r => do
    let cond ← needPredicate y.pred
    let rt ← need r (lookupRegister r)
    return .symbolic y.label .load cond y.pred (some rt) y.symbol y.comment
  | .store, some r => do
    let cond ← needPredicate y.pred
    let rt ← need r (lookupRegister r)
    return .symbolic y.label .store cond y.pred (some rt) y.symbol y.comment

/-- The parse of a line without its trailing blanks: the first shape that matches wins, in the order FULL, DATA,
SYMBOLIC, COMMENT, and a line that matches none is a syntax error (R241). -/
def parseTrimmed (line : Text) : Except AsmError Line :=
  match matchFull line with
  | some f => f.line
  | none =>
    match matchData line with
    | some d => d.line
    | none =>
      match matchSymbolic line with
      | some y => y.line
      | none =>
        match matchComment line with
        | some (label, comment) => .ok (.comment label comment)
        | none => .error .syntaxError

/-- The parse of a source line (R242, R253). -/
def parseLine (line : Text) : Except AsmError Line := parseTrimmed (trimEnd line)

end Sys2Proof.Asm
end

