-- ==== Sys2Proof/Machine/Assembler.lean ====
section
/-! DEFINITION. The two passes of the assembler, its error budget, its result and its image
(spec/44_assembler.md sections 4 to 7). It is a pure function of the error limit and the source lines. -/

namespace Sys2Proof.Asm

/-- A reported error with its source line number, counting from 1 (R267). -/
structure Report where
  line : Nat
  error : AsmError
  deriving DecidableEq, Repr

/-- The symbol table: a label and the address of the line where it was first defined (R254). -/
abbrev SymbolTable := List (Text × Nat)

/-- The address of a label; names are compared exactly (R254). -/
def SymbolTable.find : SymbolTable → Text → Option Nat
  | [], _ => none
  | (l, a) :: t, x => if l = x then some a else SymbolTable.find t x

/-- One more report, and the budget check after it: more than `limit` reports abort the assembly (R266). -/
def report (limit : Nat) (errors : List Report) (n : Nat) (e : AsmError) : Except (List Report) (List Report) :=
  if errors.length + 1 > limit then .error (errors ++ [Report.mk n e]) else .ok (errors ++ [Report.mk n e])

/-! ## Pass 1 (R254 to R257) -/

/-- A line that parsed: its number, its text and its parse. -/
structure Parsed where
  number : Nat
  text : Text
  line : Line
  deriving DecidableEq, Repr

/-- What pass 1 has built so far. -/
structure Pass1 where
  table : SymbolTable
  addr : Nat
  parsed : List Parsed
  errors : List Report
  deriving DecidableEq, Repr

/-- The state of pass 1 before the first line: the address counter starts at 0 (R255). -/
def Pass1.start : Pass1 := { table := [], addr := 0, parsed := [], errors := [] }

/-- The line kept, and the counter moved on if the line occupies a word. -/
def Pass1.keep (p : Pass1) (n : Nat) (text : Text) (line : Line) : Pass1 :=
  { p with
    addr := if line.occupies then p.addr + 1 else p.addr
    parsed := p.parsed ++ [Parsed.mk n text line] }

/-- The same state with another list of reports. -/
def Pass1.withErrors (p : Pass1) (errors : List Report) : Pass1 := { p with errors := errors }

/-- One line of pass 1 (R255, R256): a line that fails to parse is reported, defines no label and occupies no word; a
label already in the table is reported and its first definition stays, and the line is otherwise kept. -/
def Pass1.step (limit : Nat) (p : Pass1) (n : Nat) (text : Text) : Except (List Report) Pass1 :=
  match parseLine text with
  | .error e => (report limit p.errors n e).map p.withErrors
  | .ok line =>
    match line.label with
    | none => .ok (p.keep n text line)
    | some l =>
      match p.table.find l with
      | some _ =>
        (report limit p.errors n (.duplicateLabel l)).map (p.keep n text line).withErrors
      | none => .ok ({ p with table := p.table ++ [(l, p.addr)] }.keep n text line)

/-- Pass 1 over the lines from number `n` on; an abort gives the errors reported so far. -/
def pass1 (limit : Nat) : Nat → List Text → Pass1 → Except (List Report) Pass1
  | _, [], p => .ok p
  | n, text :: rest, p =>
    match p.step limit n text with
    | .error errors => .error errors
    | .ok q => pass1 limit (n + 1) rest q

/-! ## Pass 2 (R258 to R264) -/

/-- The record a SYMBOLIC line is rewritten to, base registers `r0` and `r15`: JUMP is an ADD into R15, LOAD and STORE
keep their opcode and target (R259 to R261). -/
def rewriteRecord (op : SymOp) (cond : Flags) (target : Option RegIdx) (d : Int) : Record :=
  match op with
  | .jump => ⟨.add, cond, 15, 0, 15, d⟩
  | .load => ⟨.load, cond, target.getD 0, 0, 15, d⟩
  | .store => ⟨.store, cond, target.getD 0, 0, 15, d⟩

/-- The comment part of a rewritten line: two spaces, `#` and the comment text (R263). -/
def commentText : Option Text → Text
  | none => []
  | some c => ' ' :: ' ' :: '#' :: c

/-- The label part of a rewritten line (R263). -/
def labelText : Option Text → Text
  | none => []
  | some l => l ++ [':', ' ']

/-- The text of a rewritten line (R263): `label: OP/PRED  rt,r0,r15[d]  #comment`, with the original predicate text, or
ALWAYS. -/
def rewriteText (label : Option Text) (op : SymOp) (cond : Flags) (predText : Option Text) (target : Option RegIdx)
    (comment : Option Text) (d : Int) : Text :=
  labelText label ++ opcodeName (rewriteRecord op cond target d).opcode ++ '/' :: predText.getD alwaysName ++
    ' ' :: ' ' :: operandText (rewriteRecord op cond target d).rt 0 15 d ++ commentText comment

/-- What pass 2 has built so far: the resolved text and the image, and the errors of both passes. -/
structure Pass2 where
  addr : Nat
  text : List Text
  image : List Word
  errors : List Report
  deriving DecidableEq, Repr

/-- The address counter of pass 2 starts at 0, and the error count goes on from pass 1 (R258, R266). -/
def Pass2.start (errors : List Report) : Pass2 := { addr := 0, text := [], image := [], errors := errors }

/-- One resolved line that occupies a word (R264, R270). -/
def Pass2.emit (q : Pass2) (text : Text) (w : Word) : Pass2 :=
  { q with addr := q.addr + 1, text := q.text ++ [text], image := q.image ++ [w] }

/-- No line for an unresolved SYMBOLIC line, whose word is counted all the same (R258). -/
def Pass2.skipWord (q : Pass2) (errors : List Report) : Pass2 := { q with addr := q.addr + 1, errors := errors }

/-- One line of pass 2 (R258): FULL, DATA and COMMENT lines pass through unchanged; a SYMBOLIC line is rewritten with the
displacement of its label, or reported; it advances the counter in either case. -/
def Pass2.step (limit : Nat) (table : SymbolTable) (q : Pass2) (p : Parsed) : Except (List Report) Pass2 :=
  match p.line with
  | .comment _ _ => .ok { q with text := q.text ++ [p.text] }
  | .full _ r _ => .ok (q.emit p.text r.encode)
  | .data _ w _ => .ok (q.emit p.text w)
  | .symbolic label op cond predText target symbol comment =>
    match table.find symbol with
    | none =>
      (report limit q.errors p.number (.unresolvedLabel symbol)).map q.skipWord
    | some a =>
      if offsetInRange ((a : Int) - q.addr) then
        .ok (q.emit (rewriteText label op cond predText target comment ((a : Int) - q.addr))
          (rewriteRecord op cond target ((a : Int) - q.addr)).encode)
      else
        (report limit q.errors p.number (.rangeError ((a : Int) - q.addr))).map q.skipWord

/-- Pass 2 over the lines that parsed. -/
def pass2 (limit : Nat) (table : SymbolTable) : List Parsed → Pass2 → Except (List Report) Pass2
  | [], q => .ok q
  | p :: rest, q =>
    match q.step limit table p with
    | .error errors => .error errors
    | .ok q' => pass2 limit table rest q'

/-! ## The result (R268 to R272) -/

/-- The assembler's result: only `ok` yields an image (R268). -/
inductive AsmResult where
  | ok (text : List Text) (image : List Word)
  | failed (errors : List Report)
  | aborted (errors : List Report)
  deriving DecidableEq, Repr

/-- The assembler (R240): both passes, then the result. -/
def assemble (limit : Nat) (lines : List Text) : AsmResult :=
  match pass1 limit 1 lines Pass1.start with
  | .error errors => .aborted errors
  | .ok p =>
    match pass2 limit p.table p.parsed (Pass2.start p.errors) with
    | .error errors => .aborted errors
    | .ok q => if q.errors = [] then .ok q.text q.image else .failed q.errors

/-- The symbol table of a source, when pass 1 does not abort (R254). -/
def symbolTable (limit : Nat) (lines : List Text) : Option SymbolTable :=
  match pass1 limit 1 lines Pass1.start with
  | .error _ => none
  | .ok p => some p.table

/-- The command line's exit code is non-zero exactly when the error budget was exceeded (R272; log entry 15). -/
def AsmResult.exitNonZero : AsmResult → Bool
  | .ok _ _ => false
  | .failed _ => false
  | .aborted _ => true

end Sys2Proof.Asm
end

