-- ==== Sys2Proof/Machine/Ports.lean ====
section
/-! DEFINITION. The blocks as hardware, by the port tables of the spec (spec/10_state.md R25, spec/20_memory.md R67,
spec/40_bit_codec.md R119, spec/41_alu.md R140). The step does not read these; the obligations say that they agree with
the functions it does read. -/

namespace Sys2Proof.Machine

/-! ## Register file (R25) -/

/-- The inputs of one cycle of the register file. -/
structure RegFileIn where
  raIdx : RegIdx
  rbIdx : RegIdx
  rtIdx : RegIdx
  wEn : Bool
  wIdx : RegIdx
  wData : Word
  pcInc : Bool
  deriving DecidableEq, Repr

/-- The outputs of one cycle of the register file. -/
structure RegFileOut where
  raData : Word
  rbData : Word
  rtData : Word
  pcOut : Word
  deriving DecidableEq, Repr

/-- The effect of `pc_inc`. -/
def RegFile.stepPc (r : RegFile) (pcInc : Bool) : RegFile :=
  if pcInc then RegFile.write r 15 (wrap32 (uval (RegFile.read r 15) + 1)) else r

/-- One cycle, in the order of R25: operand reads A and B, `pc_inc`, then read T and the write port. R25 does not place
`pc_out` in that order; that it shows x[15] from before `pc_inc` and the write port is DESIGN CHOICE (log entry 26). -/
def RegFile.cycle (r : RegFile) (p : RegFileIn) : RegFileOut × RegFile :=
  ({ raData := RegFile.read r p.raIdx
     rbData := RegFile.read r p.rbIdx
     rtData := RegFile.read (r.stepPc p.pcInc) p.rtIdx
     pcOut := RegFile.read r 15 },
   if p.wEn then RegFile.write (r.stepPc p.pcInc) p.wIdx p.wData else r.stepPc p.pcInc)

/-! ## Memory port (R67) -/

/-- A request on the memory port: `mem_we`, `mem_addr`, `mem_wdata` (`mem_req` is the request's being there). -/
structure MemRequest where
  we : Bool
  addr : Word
  wdata : Word
  deriving DecidableEq, Repr

/-- The answer: `mem_rdata` (0 when there is no word to read) and `mem_err`. -/
structure MemReply where
  rdata : Word
  err : Bool
  deriving DecidableEq, Repr

/-- The memory collaborator behind the port: `put` when `mem_we` is 1, `get` when it is 0, `mem_err` for an address out
of range, whose access is not performed. -/
def memPort (size : Nat) (m : Memory) (q : MemRequest) : MemReply × Memory :=
  if 0 ≤ sval q.addr ∧ sval q.addr < size then
    if q.we then (⟨0#32, false⟩, Memory.write m (sval q.addr).toNat q.wdata)
    else (⟨Memory.read m (sval q.addr).toNat, false⟩, m)
  else (⟨0#32, true⟩, m)

/-! ## Codec (R119) -/

/-- The outputs of the decoder block. -/
structure DecoderOut where
  op : BitVec 5
  illegal : Bool
  cond : BitVec 4
  rt : BitVec 4
  rs1 : BitVec 4
  rs2 : BitVec 4
  imm : Word
  deriving DecidableEq, Repr

/-- The decoder block: bit ranges of the word, the illegal line, and the sign-extended offset. -/
def decoderPorts (w : Word) : DecoderOut where
  op := w.extractLsb' 26 5
  illegal := !([0#5, 1#5, 2#5, 3#5, 5#5, 6#5, 7#5].contains (w.extractLsb' 26 5))
  cond := w.extractLsb' 22 4
  rt := w.extractLsb' 18 4
  rs1 := w.extractLsb' 14 4
  rs2 := w.extractLsb' 10 4
  imm := (w.extractLsb' 0 10).signExtend 32

/-- The encoder block: `0 ++ enc_op ++ enc_cond ++ enc_rt ++ enc_rs1 ++ enc_rs2 ++ enc_off`. -/
def encoderPorts (op : BitVec 5) (cond rt rs1 rs2 : BitVec 4) (off : BitVec 10) : Word :=
  0#1 ++ op ++ cond ++ rt ++ rs1 ++ rs2 ++ off

/-! ## ALU (R140) -/

/-- The ALU block: result and flags for an opcode number; no output for the numbers that never reach it. -/
def aluPorts (op : BitVec 5) (a b : Word) : Option (Word × Flags) :=
  (Opcode.ofNum op.toNat).map (fun o => aluExecute o a b)

end Sys2Proof.Machine
end

