-- ==== Sys2Proof/Safety.lean ====
section
/-! DEFINITION. The terms the obligations are stated in: the invariant of the machine's states, what an instruction
writes and what it leaves, when the engine steps, and the history of memory accesses. -/

namespace Sys2Proof.Machine

/-! ## The sign flags, spelled out (R146) -/

/-- M for a negative result, Z for zero, P for a positive one. -/
def signOf (result : Word) : Flags :=
  if result.toInt < 0 then 0b0001#4 else if result.toInt = 0 then 0b0010#4 else 0b0100#4

/-- Exactly one of M, Z and P is in the set; V may be (R31). -/
def exactlyOneSign (f : Flags) : Prop :=
  f &&& 0b0111#4 = 0b0001#4 ∨ f &&& 0b0111#4 = 0b0010#4 ∨ f &&& 0b0111#4 = 0b0100#4

/-! ## Frames -/

/-- Every word of memory reads as before. -/
def SameMemory (s t : State) : Prop := ∀ a : Nat, Memory.read t.mem a = Memory.read s.mem a

/-- Every word of memory but the one at address `x` reads as before. -/
def SameMemoryBut (x : Int) (s t : State) : Prop :=
  ∀ a : Nat, (a : Int) ≠ x → Memory.read t.mem a = Memory.read s.mem a

/-- Every register but `rt` and the program counter reads as before. -/
def SameRegistersBut (rt : RegIdx) (s t : State) : Prop := ∀ j : RegIdx, j ≠ rt → j ≠ 15 → t.readReg j = s.readReg j

/-- Every register but the program counter reads as before. -/
def SameRegisters (s t : State) : Prop := ∀ j : RegIdx, j ≠ 15 → t.readReg j = s.readReg j

/-- FAULT, ENGINE and SINGLE_STEP are unchanged. -/
def SameEngine (s t : State) : Prop := t.fault = s.fault ∧ t.engine = s.engine ∧ t.singleStep = s.singleStep

/-- The memory's size, the decoder's parameter, the observation port and the host's inputs are unchanged. -/
def SameSurroundings (s t : State) : Prop :=
  t.memSize = s.memSize ∧ t.reservedBitFaults = s.reservedBitFaults ∧ t.observed = s.observed ∧ t.host = s.host

/-- What an executed instruction that writes `result` to register `rt` leaves there: the target holds the result unless
it is R0, which still reads zero; the PC is the next address unless the target is R15, which the result replaces. -/
def WritesTarget (s t : State) (rt : RegIdx) (result : Word) : Prop :=
  (rt ≠ 0 → t.readReg rt = result) ∧ t.readReg 0 = 0#32 ∧ (rt ≠ 15 → t.pc = s.pc + 1#32)

/-! ## Predicates and turns -/

/-- The condition under which an instruction executes; a DATA word has the one of the record it decodes to. -/
def predicateOf (reservedBitFaults : Bool) : Instr → Option Flags
  | .halt c _ _ _ _ => some c
  | .load c _ _ _ _ => some c
  | .store c _ _ _ _ => some c
  | .add c _ _ _ _ => some c
  | .sub c _ _ _ _ => some c
  | .mul c _ _ _ _ => some c
  | .div c _ _ _ _ => some c
  | .jump c _ => some c
  | .data w => (decodeRecord reservedBitFaults w).toOption.map Record.cond

/-- In this turn the engine takes a step: it is RUNNING and the host does nothing. -/
def State.engineTurn (s : State) : Prop := s.engine = .running ∧ (s.host = [] ∨ s.host.head? = some none)

/-- The word the next step fetches, if the PC is a valid address (R171). -/
def State.fetchWord (s : State) : Word := Memory.read s.mem s.pc.toInt.toNat

/-- The PC is a valid address (R51). -/
def State.pcInRange (s : State) : Prop := 0 ≤ s.pc.toInt ∧ s.pc.toInt < s.memSize

/-- The state in which the decoded instruction is run: the turn of the host used up, the fetch on the memory port and
the event on the observation port. -/
def State.fetched (s : State) (r : Record) : State :=
  { s with
    host := s.host.tail
    bus := s.bus ++ [.get .fetch s.pc.toInt.toNat s.fetchWord]
    observed := s.observed ++ [⟨s.pc.toInt, s.fetchWord, r⟩] }

/-- The effective address of R208: `x[rs1] + x[rs2] + offset` modulo 2^32, read as signed. -/
def State.addressOf (s : State) (r : Record) : Int :=
  (wrap32 ((s.readReg r.rs1).toInt + (s.readReg r.rs2).toInt + r.offset)).toInt

/-- What STORE stores: its data register read after the PC increment (R202). -/
def State.storedValue (s : State) (rt : RegIdx) : Word := if rt = 15 then s.pc + 1#32 else s.readReg rt

/-! ## Invariant -/

/-- What every state of a run satisfies: memory is in canonical form and inside its size, there is at least one word of
memory, FLAGS is never empty (R31), HALTED goes with HALTED_STOP (R32) and FAULT with FAULTED (R33). -/
structure State.Inv (s : State) : Prop where
  memCanonical : Memory.wf s.mem = true
  memInside : ∀ c ∈ s.mem, c.1 < s.memSize
  memNonEmpty : 1 ≤ s.memSize
  flagsNonEmpty : s.flags ≠ 0#4
  haltedStop : s.halted = true ↔ s.engine = .haltedStop
  faulted : s.fault ≠ .noFault ↔ s.engine = .faulted

/-! ## The history of memory -/

/-- Memory after a list of accesses, provided that every `get` returned what the memory then held (R62). -/
def replay : Memory → List BusAccess → Option Memory
  | m, [] => some m
  | m, .get _ a v :: rest => if Memory.read m a = v then replay m rest else none
  | m, .put a v :: rest => replay (Memory.write m a v) rest

/-- The same state with other records of what was put out on the two ports. -/
def State.withRecords (s : State) (o : List Observation) (b : List BusAccess) : State :=
  { s with observed := o, bus := b }

end Sys2Proof.Machine

namespace Sys2Proof.Asm

/-- The number of lines of a list that occupy a word: the address of the line after them (R255). -/
def wordsIn (lines : List Parsed) : Nat := (lines.filter (fun p => p.line.occupies)).length

/-- The lines that parse, as pass 1 keeps them, when it does not abort. -/
def parsedLines (limit : Nat) (lines : List Text) : Option (List Parsed) :=
  match pass1 limit 1 lines Pass1.start with
  | .error _ => none
  | .ok p => some p.parsed

end Sys2Proof.Asm
end

