-- ==== Sys2Proof/Certificates/Slice0/Obligations.lean ====
section
/-! DEFINITION. The statements for the provers, from the spec's numbered rules. -/

open Sys2Proof Sys2Proof.Machine Sys2Proof.Asm

/-! ## Codec -/

/-- R117. Decoding the word of a well-formed hardware instruction gives the instruction back, whichever value
`RESERVED_BIT_FAULTS` has. -/
def Obligations.DecodeOfEncodeReturnsTheInstruction : Prop :=
  ∀ (b : Bool) (i : Instr), i.isHardware = true → i.wf = true → decodeWith b (encode i) = .ok i

/-- R93, R260. A JUMP is an ADD: its word is the word of the ADD into R15 from `r0` and `r15`, it decodes to that ADD, and
executing it is executing that ADD. -/
def Obligations.JumpIsAddIntoPc : Prop :=
  ∀ (c : Flags) (d : Int) (s : State),
    encode (.jump c d) = encode (.add c 15 0 15 d) ∧
      ((Instr.jump c d).wf = true → decode (encode (.jump c d)) = .ok (.add c 15 0 15 d)) ∧
      exec (.jump c d) s = exec (.add c 15 0 15 d) s

/-- R118. A word whose opcode field is defined decodes, and the only information decoding drops is bit 31. -/
def Obligations.EncodeOfDecodeDropsOnlyBit31 : Prop :=
  ∀ w : Word, (w.extractLsb' 26 5).toNat ∈ [0, 1, 2, 3, 5, 6, 7] →
    ∃ i, decode w = .ok i ∧ encode i = w &&& 0x7FFFFFFF#32 ∧ i.wf = true ∧ i.isHardware = true

/-- R113. The laws of the bit-field primitives for every field inside the word. -/
def Obligations.BitFieldInsertExtractLaws : Prop :=
  ∀ (v : Int) (w : Word) (lo hi : Nat), lo ≤ hi → hi ≤ 31 →
    (∀ k : Nat, k < 32 → (k < lo ∨ hi < k) → (insert v w lo hi).getLsbD k = w.getLsbD k) ∧
      (extract (insert v w lo hi) lo hi : Int) = v % 2 ^ (hi - lo + 1) ∧
      -2 ^ (hi - lo) ≤ extractSigned (insert v w lo hi) lo hi ∧
      extractSigned (insert v w lo hi) lo hi < 2 ^ (hi - lo) ∧
      (extractSigned (insert v w lo hi) lo hi - v) % 2 ^ (hi - lo + 1) = 0

/-- R85, R88, R89. With `RESERVED_BIT_FAULTS` false a word decodes exactly when bits 30:26 hold one of the seven defined
numbers; 4 and 8 to 31 give the error that names the number. -/
def Obligations.OnlySevenOpcodesDecode : Prop :=
  ∀ w : Word,
    let n := (w.extractLsb' 26 5).toNat
    (n ∈ [0, 1, 2, 3, 5, 6, 7] → ∃ i, decodeWith false w = .ok i ∧ i.isHardware = true) ∧
      (n = 4 ∨ 8 ≤ n → decodeWith false w = .error (.undefinedOpcode n))

/-- R89. Bit 31 is ignored by default; with `RESERVED_BIT_FAULTS` true a word with it set does not decode and one without
it decodes as before; no record is encoded with it set. -/
def Obligations.ReservedBitIgnoredOrFaulting : Prop :=
  (∀ w : Word, decodeWith false w = decodeWith false (w &&& 0x7FFFFFFF#32)) ∧
    (∀ w : Word, w.getLsbD 31 = true → decodeWith true w = .error .reservedBitSet) ∧
    (∀ w : Word, w.getLsbD 31 = false → decodeWith true w = decodeWith false w) ∧
    (∀ r : Record, r.encode.getLsbD 31 = false)

/-- Words of spec/95_test_vectors.md section 3 decode to the instructions they stand for. -/
def Obligations.SampleWordsDecode : Prop :=
  decode 0x03C00000#32 = .ok (.halt 15 0 0 0 0) ∧
    decode 0x07C43C05#32 = .ok (.load 15 1 0 15 5) ∧
    decode 0x0BC8C3FF#32 = .ok (.store 15 2 3 0 (-1)) ∧
    decode 0x0FC48C04#32 = .ok (.add 15 1 2 3 4) ∧
    decode 0x14FC3C07#32 = .ok (.sub 3 15 0 15 7) ∧
    decode 0x1BC48003#32 = .ok (.mul 15 1 2 0 3) ∧
    decode 0x1E3FFDFF#32 = .ok (.div 8 15 15 15 511) ∧
    decode 0x10000000#32 = .error (.undefinedOpcode 4) ∧
    decode 0xFFFFFFFF#32 = .error (.undefinedOpcode 31)

/-- R112, R116, R119. Whatever integers the fields hold, packing them truncates each to its field's width and places it as
the encoder block does: `0 ++ op ++ cond ++ rt ++ rs1 ++ rs2 ++ offset`. -/
def Obligations.PackingTruncatesEachField : Prop :=
  ∀ op cond rt rs1 rs2 d : Int,
    packFields op cond rt rs1 rs2 d =
      0#1 ++ BitVec.ofInt 5 op ++ BitVec.ofInt 4 cond ++ BitVec.ofInt 4 rt ++ BitVec.ofInt 4 rs1 ++
        BitVec.ofInt 4 rs2 ++ BitVec.ofInt 10 d

/-- R119. The decoder block's illegal line is high exactly when the word does not decode, and otherwise its outputs are
the fields of the decoded record, the offset sign-extended. -/
def Obligations.DecoderBlockAgreesWithDecode : Prop :=
  ∀ w : Word,
    ((decoderPorts w).illegal = true ↔ ∃ e, decodeRecord false w = .error e) ∧
      ∀ r : Record, decodeRecord false w = .ok r →
        (decoderPorts w).op.toNat = r.opcode.num ∧ (decoderPorts w).cond = r.cond ∧
          (decoderPorts w).rt.toNat = r.rt.val ∧ (decoderPorts w).rs1.toNat = r.rs1.val ∧
          (decoderPorts w).rs2.toNat = r.rs2.val ∧ (decoderPorts w).imm = BitVec.ofInt 32 r.offset

/-! ## ALU -/

/-- R141 to R145. The result of every opcode: sums, difference and product modulo 2^32 of the signed operands; the
quotient truncated toward zero, and 0 for a zero divisor, the value the spec fixes. -/
def Obligations.AluResultOfEachOpcode : Prop :=
  ∀ a b : Word,
    (∀ op : Opcode, op = .add ∨ op = .halt ∨ op = .load ∨ op = .store →
      (aluExecute op a b).1 = BitVec.ofInt 32 (a.toInt + b.toInt)) ∧
      (aluExecute .sub a b).1 = BitVec.ofInt 32 (a.toInt - b.toInt) ∧
      (aluExecute .mul a b).1 = BitVec.ofInt 32 (a.toInt * b.toInt) ∧
      (b.toInt = 0 → (aluExecute .div a b).1 = 0#32) ∧
      (b.toInt ≠ 0 → (aluExecute .div a b).1 = BitVec.ofInt 32 (a.toInt.tdiv b.toInt))

/-- R146, R147. Exactly one of M, Z and P is set, by the sign of the result read as signed; V is set exactly when DIV is
attempted with a zero divisor. -/
def Obligations.AluFlagsFromResult : Prop :=
  ∀ (op : Opcode) (a b : Word),
    let r := (aluExecute op a b).1
    let f := (aluExecute op a b).2
    f.getLsbD 0 = decide (r.toInt < 0) ∧ f.getLsbD 1 = decide (r.toInt = 0) ∧ f.getLsbD 2 = decide (0 < r.toInt) ∧
      (f.getLsbD 3 = true ↔ op = .div ∧ b = 0#32)

/-! ## Registers and the program counter -/

/-- R21, R22. A register other than R0 reads as the last value written to it, a write leaves every other register, and R0
reads zero and discards writes. -/
def Obligations.RegistersReadLastWrite : Prop :=
  ∀ (s : State) (i j : RegIdx) (v : Word),
    (i ≠ 0 → (s.writeReg i v).readReg i = v) ∧ (j ≠ i → (s.writeReg i v).readReg j = s.readReg j) ∧
      s.readReg 0 = 0#32 ∧ s.writeReg 0 v = s

/-- R29. The increment wraps modulo 2^32, and after address 2^31 - 1 comes the address -2^31, which no memory has. -/
def Obligations.PcIncrementWraps : Prop :=
  ∀ s : State,
    s.incPc.pc = s.pc + 1#32 ∧
      (s.pc = 0x7FFFFFFF#32 → s.incPc.pc.toInt = -2147483648 ∧ s.incPc.inRange s.incPc.pc.toInt = false)

/-! ## Instructions: what each does when its predicate holds -/

/-- R173. An instruction whose predicate fails only advances the PC. It covers HALT, LOAD, STORE, ADD, SUB, MUL, DIV,
JUMP, and a DATA word that decodes. -/
def Obligations.FailedPredicateOnlyAdvancesPc : Prop :=
  ∀ (i : Instr) (c : Flags) (s : State), predicateOf s.reservedBitFaults i = some c → s.flags &&& c = 0#4 →
    ∃ t, exec i s = .next t ∧ t.pc = s.pc + 1#32 ∧ SameRegisters s t ∧ t.flags = s.flags ∧ t.halted = s.halted ∧
      t.mem = s.mem ∧ SameEngine s t ∧ SameSurroundings s t ∧ t.bus = s.bus

/-- R203. Operand 1 plus operand 2 modulo 2^32 goes to the target, FLAGS are the sign of that result and never V, there
is no fault, and the instruction's word matches 0x0C000000 under the mask 0x7C000000. -/
def Obligations.AddWritesSum : Prop :=
  ∀ (c : Flags) (rt rs1 rs2 : RegIdx) (d : Int) (s : State), s.flags &&& c ≠ 0#4 →
    let operand2 := BitVec.ofInt 32 ((s.readReg rs2).toInt + d)
    let result := BitVec.ofInt 32 ((s.readReg rs1).toInt + operand2.toInt)
    ∃ t, exec (.add c rt rs1 rs2 d) s = .next t ∧ WritesTarget s t rt result ∧ t.flags = signOf result ∧
      t.fault = s.fault ∧ encode (.add c rt rs1 rs2 d) &&& 0x7C000000#32 = 0x0C000000#32

/-- R204. The same for operand 1 minus operand 2; the offset belongs to the subtrahend. The match is 0x14000000. -/
def Obligations.SubWritesDifference : Prop :=
  ∀ (c : Flags) (rt rs1 rs2 : RegIdx) (d : Int) (s : State), s.flags &&& c ≠ 0#4 →
    let operand2 := BitVec.ofInt 32 ((s.readReg rs2).toInt + d)
    let result := BitVec.ofInt 32 ((s.readReg rs1).toInt - operand2.toInt)
    ∃ t, exec (.sub c rt rs1 rs2 d) s = .next t ∧ WritesTarget s t rt result ∧ t.flags = signOf result ∧
      t.fault = s.fault ∧ encode (.sub c rt rs1 rs2 d) &&& 0x7C000000#32 = 0x14000000#32

/-- R205. The same for the low 32 bits of the product. The match is 0x18000000. -/
def Obligations.MulWritesLowProduct : Prop :=
  ∀ (c : Flags) (rt rs1 rs2 : RegIdx) (d : Int) (s : State), s.flags &&& c ≠ 0#4 →
    let operand2 := BitVec.ofInt 32 ((s.readReg rs2).toInt + d)
    let result := BitVec.ofInt 32 ((s.readReg rs1).toInt * operand2.toInt)
    ∃ t, exec (.mul c rt rs1 rs2 d) s = .next t ∧ WritesTarget s t rt result ∧ t.flags = signOf result ∧
      t.fault = s.fault ∧ encode (.mul c rt rs1 rs2 d) &&& 0x7C000000#32 = 0x18000000#32

/-- R206, R294. The divisor is operand 2; a zero divisor gives 0 with flags Z and V and no fault. -/
def Obligations.DivWritesQuotient : Prop :=
  ∀ (c : Flags) (rt rs1 rs2 : RegIdx) (d : Int) (s : State), s.flags &&& c ≠ 0#4 →
    let operand2 := BitVec.ofInt 32 ((s.readReg rs2).toInt + d)
    let result := if operand2.toInt = 0 then 0#32 else BitVec.ofInt 32 ((s.readReg rs1).toInt.tdiv operand2.toInt)
    ∃ t, exec (.div c rt rs1 rs2 d) s = .next t ∧ WritesTarget s t rt result ∧ t.fault = s.fault ∧
      t.flags = (if operand2.toInt = 0 then 0b1010#4 else signOf result)

/-- R200. HALT sets HALTED, FLAGS by the address sum, and advances the PC; no other register and no memory word changes,
whatever `rt` names. -/
def Obligations.HaltSetsHalted : Prop :=
  ∀ (c : Flags) (rt rs1 rs2 : RegIdx) (d : Int) (s : State), s.flags &&& c ≠ 0#4 →
    let operand2 := BitVec.ofInt 32 ((s.readReg rs2).toInt + d)
    let result := BitVec.ofInt 32 ((s.readReg rs1).toInt + operand2.toInt)
    ∃ t, exec (.halt c rt rs1 rs2 d) s = .next t ∧ t.halted = true ∧ t.pc = s.pc + 1#32 ∧ t.flags = signOf result ∧
      SameRegisters s t ∧ SameMemory s t ∧ t.bus = s.bus

/-- R201, R208. LOAD places the word at the effective address in its target unchanged; FLAGS are those of the address. -/
def Obligations.LoadPlacesWord : Prop :=
  ∀ (c : Flags) (rt rs1 rs2 : RegIdx) (d : Int) (s : State), s.flags &&& c ≠ 0#4 →
    let address := BitVec.ofInt 32 ((s.readReg rs1).toInt + (s.readReg rs2).toInt + d)
    0 ≤ address.toInt → address.toInt < s.memSize →
    ∃ t, exec (.load c rt rs1 rs2 d) s = .next t ∧ WritesTarget s t rt (Memory.read s.mem address.toInt.toNat) ∧
      t.flags = signOf address ∧ t.bus = s.bus ++ [.get .load address.toInt.toNat (Memory.read s.mem address.toInt.toNat)]

/-- R202, R208, R23. STORE puts its data register, read after the PC increment, at the effective address. -/
def Obligations.StorePutsRegister : Prop :=
  ∀ (c : Flags) (rt rs1 rs2 : RegIdx) (d : Int) (s : State), s.flags &&& c ≠ 0#4 →
    let address := BitVec.ofInt 32 ((s.readReg rs1).toInt + (s.readReg rs2).toInt + d)
    0 ≤ address.toInt → address.toInt < s.memSize →
    ∃ t, exec (.store c rt rs1 rs2 d) s = .next t ∧
      Memory.read t.mem address.toInt.toNat = (if rt = 15 then s.pc + 1#32 else s.readReg rt) ∧
      t.flags = signOf address ∧ t.pc = s.pc + 1#32

/-- R54, R292. A LOAD or STORE whose address is out of range performs no access: FLAGS and the PC have been updated, the
fault is in FAULT and the engine in FAULTED, and no register but the PC and no memory word is written. -/
def Obligations.OutOfRangeAccessFaults : Prop :=
  ∀ (c : Flags) (rt rs1 rs2 : RegIdx) (d : Int) (s : State), s.flags &&& c ≠ 0#4 →
    let address := BitVec.ofInt 32 ((s.readReg rs1).toInt + (s.readReg rs2).toInt + d)
    (address.toInt < 0 ∨ (s.memSize : Int) ≤ address.toInt) →
    (∃ t, exec (.load c rt rs1 rs2 d) s = .next t ∧ t.fault = .boundsError address.toInt .load ∧
        t.engine = .faulted ∧ t.flags = signOf address ∧ t.pc = s.pc + 1#32 ∧ SameRegisters s t ∧ t.mem = s.mem ∧
        t.bus = s.bus) ∧
      (∃ t, exec (.store c rt rs1 rs2 d) s = .next t ∧ t.fault = .boundsError address.toInt .store ∧
        t.engine = .faulted ∧ t.flags = signOf address ∧ t.pc = s.pc + 1#32 ∧ SameRegisters s t ∧ t.mem = s.mem ∧
        t.bus = s.bus)

/-- R259, R260. A JUMP whose predicate holds goes to its own address plus the displacement. -/
def Obligations.JumpGoesToDisplacement : Prop :=
  ∀ (c : Flags) (d : Int) (s : State), s.flags &&& c ≠ 0#4 →
    ∃ t, exec (.jump c d) s = .next t ∧ t.pc = BitVec.ofInt 32 (s.pc.toInt + d) ∧
      t.flags = signOf (BitVec.ofInt 32 (s.pc.toInt + d)) ∧ SameRegisters s t ∧ t.mem = s.mem

/-- R88, R89, R93, R290. A DATA word that is reached executes as the instruction its bits name; unless that is a LOAD or
STORE whose address is out of range, this is a next state without a fault. A word that names no instruction raises
DecodingError at the address it stands at and changes nothing else. -/
def Obligations.DataWordRunsAsDecoded : Prop :=
  ∀ (w : Word) (s : State),
    (∀ r : Record, decodeRecord s.reservedBitFaults w = .ok r →
      exec (.data w) s = exec r.toInstr s ∧
        ((r.opcode = .load ∨ r.opcode = .store → s.inRange (s.addressOf r) = true) →
          ∃ t, exec (.data w) s = .next t ∧ t.fault = s.fault ∧ t.engine = s.engine)) ∧
      ∀ e : DecodeError, decodeRecord s.reservedBitFaults w = .error e →
        exec (.data w) s = .next { s with fault := .decodingError s.pc.toInt w, engine := .faulted }

/-! ## Instructions: what each leaves unchanged -/

/-- ADD, SUB, MUL, DIV and JUMP write no register but the target and the PC, no memory word, and no control state; FLAGS
change only when the predicate holds. -/
def Obligations.RegisterInstructionsFrame : Prop :=
  ∀ (i : Instr) (c : Flags) (rt rs1 rs2 : RegIdx) (d : Int) (s t : State),
    i ∈ [Instr.add c rt rs1 rs2 d, .sub c rt rs1 rs2 d, .mul c rt rs1 rs2 d, .div c rt rs1 rs2 d] ∨
      (i = .jump c d ∧ rt = 15) →
    exec i s = .next t →
    SameRegistersBut rt s t ∧ SameMemory s t ∧ t.halted = s.halted ∧ SameEngine s t ∧ SameSurroundings s t ∧
      t.bus = s.bus ∧ (s.flags &&& c = 0#4 → t.flags = s.flags)

/-- HALT writes no register but the PC, no memory word, and of the control state only HALTED. -/
def Obligations.HaltFrame : Prop :=
  ∀ (c : Flags) (rt rs1 rs2 : RegIdx) (d : Int) (s t : State), exec (.halt c rt rs1 rs2 d) s = .next t →
    SameRegisters s t ∧ SameMemory s t ∧ SameEngine s t ∧ SameSurroundings s t ∧ t.bus = s.bus ∧
      (s.flags &&& c = 0#4 → t.flags = s.flags ∧ t.halted = s.halted)

/-- LOAD writes no register but the target and the PC and no memory word; FAULT and ENGINE change only when the predicate
holds and the address is out of range. -/
def Obligations.LoadFrame : Prop :=
  ∀ (c : Flags) (rt rs1 rs2 : RegIdx) (d : Int) (s t : State), exec (.load c rt rs1 rs2 d) s = .next t →
    SameRegistersBut rt s t ∧ SameMemory s t ∧ t.halted = s.halted ∧ t.singleStep = s.singleStep ∧
      SameSurroundings s t ∧ (s.flags &&& c = 0#4 → t.flags = s.flags) ∧
      (s.flags &&& c = 0#4 ∨ s.inRange (s.effectiveAddress .load rs1 rs2 d) = true → SameEngine s t)

/-- STORE writes no register but the PC; every memory word but the one at its effective address reads as before, and all
of them when it is skipped or its address is out of range; FAULT and ENGINE change only in the latter case. -/
def Obligations.StoreFrame : Prop :=
  ∀ (c : Flags) (rt rs1 rs2 : RegIdx) (d : Int) (s t : State), exec (.store c rt rs1 rs2 d) s = .next t →
    SameRegisters s t ∧ SameMemoryBut (s.effectiveAddress .store rs1 rs2 d) s t ∧ t.halted = s.halted ∧
      t.singleStep = s.singleStep ∧ SameSurroundings s t ∧
      (s.flags &&& c = 0#4 → t.flags = s.flags) ∧
      (s.flags &&& c = 0#4 ∨ s.inRange (s.effectiveAddress .store rs1 rs2 d) = false → SameMemory s t) ∧
      (s.flags &&& c = 0#4 ∨ s.inRange (s.effectiveAddress .store rs1 rs2 d) = true → SameEngine s t)

/-- R31. After any instruction whose predicate held, FLAGS holds exactly one of M, Z and P, so it is not empty; and FLAGS
is not empty at reset (the reset value is the spec's choice, D10, log entry 19). -/
def Obligations.ExecutedInstructionLeavesOneSign : Prop :=
  (∀ (i : Instr) (c : Flags) (s t : State), predicateOf s.reservedBitFaults i = some c → s.flags &&& c ≠ 0#4 →
    exec i s = .next t → exactlyOneSign t.flags ∧ t.flags ≠ 0#4) ∧ State.reset.flags ≠ 0#4

/-! ## The step -/

/-- R171, R172, R176. When the engine steps and the word at the PC decodes, the step is the instruction's meaning, run
after the fetch and the observation event, and then the move of ENGINE. -/
def Obligations.StepRunsTheDecodedInstruction : Prop :=
  ∀ (s : State) (i : Instr), s.engineTurn → s.pcInRange → decodeWith s.reservedBitFaults s.fetchWord = .ok i →
    i.wf = true ∧
      ∃ r : Record, i = r.toInstr ∧ decodeRecord s.reservedBitFaults s.fetchWord = .ok r ∧
        step s = mapNext State.afterStep (exec i (s.fetched r))

/-- R171, R292. A PC outside memory raises BoundsError(addr, fetch) and nothing else changes. -/
def Obligations.FetchOutOfRangeFaults : Prop :=
  ∀ s : State, s.engineTurn → ¬ s.pcInRange →
    step s = .next { s with
      host := s.host.tail, fault := .boundsError s.pc.toInt .fetch, engine := .faulted }

/-- R88, R89, R290. A fetched word with opcode 4 or 8 to 31, or with bit 31 set when `RESERVED_BIT_FAULTS` is true, raises
DecodingError(addr, word), whatever its condition field holds, and the PC, FLAGS, the registers, memory and the
observation port are as before. -/
def Obligations.UndefinedOpcodeFaults : Prop :=
  ∀ s : State, s.engineTurn → s.pcInRange →
    (s.fetchWord.extractLsb' 26 5 = 4#5 ∨ 8#5 ≤ s.fetchWord.extractLsb' 26 5 ∨
      (s.reservedBitFaults = true ∧ s.fetchWord.getLsbD 31 = true)) →
    ∃ t, step s = .next t ∧ t.fault = .decodingError s.pc.toInt s.fetchWord ∧ t.engine = .faulted ∧
      t.regs = s.regs ∧ t.flags = s.flags ∧ t.mem = s.mem ∧ t.halted = s.halted ∧ t.observed = s.observed ∧
      t.singleStep = s.singleStep ∧ t.memSize = s.memSize

/-- R297. Which fault a step raises, by the order of the step: a fetch BoundsError, else a DecodingError, else, only for an
executed LOAD or STORE, the BoundsError of its address; the only other change of FAULT is the host's reset. -/
def Obligations.FaultsFollowTheStepOrder : Prop :=
  ∀ s t : State, step s = .next t → t.fault ≠ s.fault →
    s.host.head? = some (some .reset) ∨
      (s.engineTurn ∧
        ((¬ s.pcInRange ∧ t.fault = .boundsError s.pc.toInt .fetch) ∨
          (s.pcInRange ∧ (∃ e, decodeRecord s.reservedBitFaults s.fetchWord = .error e) ∧
            t.fault = .decodingError s.pc.toInt s.fetchWord) ∨
          (s.pcInRange ∧ ∃ r, decodeRecord s.reservedBitFaults s.fetchWord = .ok r ∧ s.flags &&& r.cond ≠ 0#4 ∧
            s.inRange (s.addressOf r) = false ∧
            ((r.opcode = .load ∧ t.fault = .boundsError (s.addressOf r) .load) ∨
              (r.opcode = .store ∧ t.fault = .boundsError (s.addressOf r) .store)))))

/-- R179. Where ENGINE goes after a step of a running engine: FAULTED if the step faulted, else HALTED_STOP if HALTED is
true, else PAUSED in single-step mode, else RUNNING. -/
def Obligations.RunningStepMovesEngine : Prop :=
  ∀ s t : State, s.Inv → s.engineTurn → step s = .next t →
    (t.fault ≠ .noFault → t.engine = .faulted) ∧
      (t.fault = .noFault → t.halted = true → t.engine = .haltedStop) ∧
      (t.fault = .noFault → t.halted = false → s.singleStep = true → t.engine = .paused) ∧
      (t.fault = .noFault → t.halted = false → s.singleStep = false → t.engine = .running)

/-- R178. A step that decodes emits exactly one observation event, skipped or not; a step that faults in fetch or decode,
and a turn without a step, emit none. -/
def Obligations.OneObservationPerDecodedStep : Prop :=
  ∀ s t : State, step s = .next t →
    (∀ r, s.engineTurn → s.pcInRange → decodeRecord s.reservedBitFaults s.fetchWord = .ok r →
      t.observed = s.observed ++ [⟨s.pc.toInt, s.fetchWord, r⟩]) ∧
      (¬ s.engineTurn ∨ ¬ s.pcInRange ∨ (∃ e, decodeRecord s.reservedBitFaults s.fetchWord = .error e) →
        t.observed = s.observed)

/-- R59. The accesses of a step: one fetch, then, only for an executed LOAD or STORE whose address is valid, one data
access; nothing else, and nothing at all in a turn without a step. -/
def Obligations.AccessesOfAStep : Prop :=
  ∀ s t : State, step s = .next t →
    (¬ s.engineTurn ∨ ¬ s.pcInRange → t.bus = s.bus) ∧
      (s.engineTurn → s.pcInRange →
        ∃ data, t.bus = s.bus ++ [.get .fetch s.pc.toInt.toNat s.fetchWord] ++ data ∧
          ((∃ e, decodeRecord s.reservedBitFaults s.fetchWord = .error e) → data = []) ∧
          ∀ r, decodeRecord s.reservedBitFaults s.fetchWord = .ok r →
            data =
              if s.flags &&& r.cond ≠ 0#4 ∧ s.inRange (s.addressOf r) = true then
                match r.opcode with
                | .load => [.get .load (s.addressOf r).toNat (Memory.read s.mem (s.addressOf r).toNat)]
                | .store => [.put (s.addressOf r).toNat (s.storedValue r.rt)]
                | _ => []
              else [])

/-- R65. A STORE to the address of the very next instruction is seen by the next fetch: the stored word is what the next
step decodes and runs. -/
def Obligations.StoredWordIsFetchedNext : Prop :=
  ∀ (s : State) (r r' : Record), s.engineTurn → s.pcInRange → s.halted = false → s.singleStep = false →
    decodeRecord s.reservedBitFaults s.fetchWord = .ok r → r.opcode = .store → s.flags &&& r.cond ≠ 0#4 →
    s.addressOf r = s.pc.toInt + 1 → s.inRange (s.addressOf r) = true →
    decodeRecord s.reservedBitFaults (s.storedValue r.rt) = .ok r' →
    ∃ t, step s = .next t ∧ t.pc = s.pc + 1#32 ∧ t.engine = .running ∧ t.fetchWord = s.storedValue r.rt ∧
      (t.host = [] → step t = mapNext State.afterStep (exec r'.toInstr (t.fetched r')))

/-- R207. A jump by an arithmetic instruction to a target outside memory does not fault itself; the next step's fetch
raises BoundsError(target, fetch). -/
def Obligations.JumpOutOfMemoryFaultsAtNextFetch : Prop :=
  ∀ (s : State) (r : Record), s.engineTurn → s.pcInRange → s.halted = false → s.singleStep = false →
    decodeRecord s.reservedBitFaults s.fetchWord = .ok r → r.opcode ∈ [Opcode.add, .sub, .mul, .div] → r.rt = 15 →
    s.flags &&& r.cond ≠ 0#4 →
    s.inRange (sval (s.result r.opcode r.rs1 r.rs2 r.offset)) = false →
    ∃ t, step s = .next t ∧ t.fault = s.fault ∧ t.pc = s.result r.opcode r.rs1 r.rs2 r.offset ∧
      (t.host = [] → ∃ u, step t = .next u ∧
        u.fault = .boundsError (sval (s.result r.opcode r.rs1 r.rs2 r.offset)) .fetch ∧ u.engine = .faulted)

/-! ## Host, control state and reset -/

/-- R37. The reset value of every piece of the core's state. Only HALTED's is the source's; all others are values the spec
chose and marks as its own decisions (D10 for the registers and FLAGS, D12 for FAULT, D29 for ENGINE), and the model takes
them as fixed (log entry 19). -/
def Obligations.ResetValues : Prop :=
  (∀ i : RegIdx, State.reset.readReg i = 0#32) ∧ State.reset.flags = 0b1111#4 ∧ State.reset.halted = false ∧
    State.reset.fault = .noFault ∧ State.reset.engine = .idle ∧ State.reset.singleStep = false

/-- R320. Reset from any state gives the core its reset values, the spec's own choice (D10, log entry 19), and does not
touch memory (log entry 12). -/
def Obligations.ResetRestoresTheCore : Prop :=
  ∀ (s : State) (rest : List (Option HostEvent)), s.host = some .reset :: rest →
    ∃ t, step s = .next t ∧ (∀ i : RegIdx, t.readReg i = 0#32) ∧ t.flags = 0b1111#4 ∧ t.halted = false ∧
      t.fault = .noFault ∧ t.engine = .idle ∧ t.singleStep = false ∧ t.mem = s.mem ∧ t.memSize = s.memSize ∧
      t.reservedBitFaults = s.reservedBitFaults

/-- R179, R181; for a start address that only its wrap brings into memory, log entry 24. `run` from IDLE sets the PC and
SINGLE_STEP and changes nothing else but ENGINE, which goes to RUNNING, or to HALTED_STOP if HALTED is true. -/
def Obligations.RunStartsTheEngine : Prop :=
  ∀ (s : State) (start : Int) (ss : Bool) (rest : List (Option HostEvent)),
    s.host = some (.run start ss) :: rest → s.engine = .idle →
    ∃ t, step s = .next t ∧ t.pc = BitVec.ofInt 32 start ∧ t.singleStep = ss ∧
      t.engine = (if s.halted then .haltedStop else .running) ∧ SameRegisters s t ∧ t.flags = s.flags ∧
      t.halted = s.halted ∧ t.fault = s.fault ∧ t.mem = s.mem

/-- R182, R183. The continue signal takes PAUSED to RUNNING, and an abort takes RUNNING or PAUSED to IDLE; neither changes
anything else. -/
def Obligations.ContinueAndAbortMoveOnlyEngine : Prop :=
  ∀ (s : State) (rest : List (Option HostEvent)),
    (s.host = some .continueSignal :: rest → s.engine = .paused →
      step s = .next { s with host := rest, engine := .running }) ∧
      (s.host = some .abort :: rest → s.engine = .running ∨ s.engine = .paused →
        step s = .next { s with host := rest, engine := .idle })

/-- R179, R180. Outside RUNNING the engine takes no step of its own: with no input of the host left, `step` stops with the
reason (the model's choice, log entry 5), and in a turn in which the host does nothing, nothing changes. -/
def Obligations.NoStepOutsideRunning : Prop :=
  ∀ s : State,
    (s.host = [] →
      (s.engine = .idle → step s = .fault .idle) ∧ (s.engine = .paused → step s = .fault .paused) ∧
        (s.engine = .haltedStop → step s = .fault .haltedStop) ∧ (s.engine = .faulted → step s = .fault .faulted)) ∧
      ∀ rest, s.host = none :: rest → s.engine ≠ .running → step s = .next { s with host := rest }

/-- R180, R299, R320. Reset is the only way out of HALTED_STOP and FAULTED: any other input of the host changes nothing. -/
def Obligations.OnlyResetLeavesTheFinalStates : Prop :=
  ∀ (s : State) (x : Option HostEvent) (rest : List (Option HostEvent)), s.host = x :: rest →
    s.engine = .haltedStop ∨ s.engine = .faulted → x ≠ some .reset → step s = .next { s with host := rest }

/-- R32. HALTED is set only by an executed HALT and cleared only by reset. -/
def Obligations.HaltedSetOnlyByHalt : Prop :=
  ∀ s t : State, step s = .next t →
    (s.halted = false → t.halted = true →
      s.engineTurn ∧ s.pcInRange ∧
        ∃ r, decodeRecord s.reservedBitFaults s.fetchWord = .ok r ∧ r.opcode = .halt ∧ s.flags &&& r.cond ≠ 0#4) ∧
      (s.halted = true → t.halted = false → s.host.head? = some (some .reset))

/-! ## Whole-machine statements -/

/-- The reset state, with the values of log entries 2, 3 and 19, meets the invariant. -/
def Obligations.ResetMeetsTheInvariant : Prop := State.reset.Inv

/-- R31, R32, R33, R54. Every step, from every state that meets the invariant, gives a state that meets it. -/
def Obligations.StepKeepsTheInvariant : Prop :=
  ∀ s t : State, s.Inv → step s = .next t → t.Inv

/-- R62. Memory is sequential: if every read so far returned the latest word put there and memory is what the puts made
it, the same holds after any step. -/
def Obligations.EveryReadReturnsTheLatestPut : Prop :=
  ∀ (m : Memory) (s t : State), replay m s.bus = some s.mem → step s = .next t → replay m t.bus = some t.mem

/-- The model's two records, of the events of the observation port (log entry 8) and of the accesses completed on the
memory port (log entry 9), steer nothing: with other records the same turn is taken and everything but the records is the
same. For the observation port this is R178; that the memory port's record steers nothing is a fact of the model's own
field, which no rule states. -/
def Obligations.RecordsDoNotSteer : Prop :=
  ∀ (s t : State) (o : List Observation) (b : List BusAccess), step s = .next t →
    ∃ o' b', step (s.withRecords o b) = .next (t.withRecords (o ++ o') (b ++ b')) ∧
      t.observed = s.observed ++ o' ∧ t.bus = s.bus ++ b'

/-! ## Ports -/

/-- R25. An instruction's use of the register file is one cycle of its ports: operand reads A and B, the increment, then
the read T or the write port; HALT, STORE and a skipped instruction use no write port. That `pc_out` is the PC before
the increment is the model's choice (log entry 26). -/
def Obligations.InstructionIsOneRegisterFileCycle : Prop :=
  ∀ (s : State) (r : Record),
    ∃ t, exec r.toInstr s = .next t ∧
      (s.flags &&& r.cond ≠ 0#4 → r.opcode ∈ [Opcode.add, .sub, .mul, .div] →
        RegFile.cycle s.regs ⟨r.rs1, r.rs2, r.rt, true, r.rt, s.result r.opcode r.rs1 r.rs2 r.offset, true⟩ =
          (⟨s.readReg r.rs1, s.readReg r.rs2, s.storedValue r.rt, s.pc⟩, t.regs)) ∧
      (s.flags &&& r.cond ≠ 0#4 → r.opcode = .load → s.inRange (s.addressOf r) = true →
        (RegFile.cycle s.regs
          ⟨r.rs1, r.rs2, r.rt, true, r.rt, Memory.read s.mem (s.addressOf r).toNat, true⟩).2 = t.regs) ∧
      (s.flags &&& r.cond ≠ 0#4 → r.opcode = .store → s.inRange (s.addressOf r) = true →
        Memory.read t.mem (s.addressOf r).toNat =
          (RegFile.cycle s.regs ⟨r.rs1, r.rs2, r.rt, false, 0, 0#32, true⟩).1.rtData) ∧
      (s.flags &&& r.cond = 0#4 ∨ r.opcode = .halt ∨ r.opcode = .store →
        (RegFile.cycle s.regs ⟨r.rs1, r.rs2, r.rt, false, 0, 0#32, true⟩).2 = t.regs)

/-- R54, R67. The core's reads and writes are the memory port's: `mem_err` exactly when the access is not performed. -/
def Obligations.MemoryPortAgreesWithAccesses : Prop :=
  ∀ (s : State) (k : AccessKind) (a v : Word),
    (s.memGet k a.toInt = none ↔ (memPort s.memSize s.mem ⟨false, a, v⟩).1.err = true) ∧
      (s.memPut a.toInt v = none ↔ (memPort s.memSize s.mem ⟨true, a, v⟩).1.err = true) ∧
      (∀ x t, s.memGet k a.toInt = some (x, t) →
        x = (memPort s.memSize s.mem ⟨false, a, v⟩).1.rdata ∧ t.mem = s.mem) ∧
      ∀ t, s.memPut a.toInt v = some t → t.mem = (memPort s.memSize s.mem ⟨true, a, v⟩).2

/-! ## Assembler -/

/-- R120. The rendering of a well-formed record is a FULL line that parses back to the record. -/
def Obligations.RenderedRecordParsesBack : Prop :=
  ∀ r : Record, r.wf = true → parseLine (render r) = .ok (.full none r none)

/-- R263. The text a SYMBOLIC line is rewritten to is a FULL line that parses to the record the rewrite intends, with the
original label and comment. -/
def Obligations.RewrittenLineParsesBack : Prop :=
  ∀ (text : Text) (label : Option Text) (op : SymOp) (cond : Flags) (pred : Option Text) (target : Option RegIdx)
    (symbol : Text) (comment : Option Text) (d : Int),
    parseLine text = .ok (.symbolic label op cond pred target symbol comment) → offsetInRange d = true →
    parseLine (rewriteText label op cond pred target comment d) =
      .ok (.full label (rewriteRecord op cond target d) comment)

/-- R245. A predicate word is ALWAYS, NEVER, or letters from N, M, Z, P, V in any order, repeated or not, whose flags are
united; any other word is none. -/
def Obligations.PredicateWordsNameFlagSets : Prop :=
  ∀ (w : Text) (f : Flags),
    lookupPredicate w = some f ↔
      (w = "ALWAYS".toList ∧ f = 0b1111#4) ∨ (w = "NEVER".toList ∧ f = 0b0000#4) ∨
        (w ≠ [] ∧ (∀ x ∈ w, x ∈ ['N', 'M', 'Z', 'P', 'V']) ∧
          (f.getLsbD 0 = true ↔ 'N' ∈ w ∨ 'M' ∈ w) ∧ (f.getLsbD 1 = true ↔ 'Z' ∈ w) ∧
          (f.getLsbD 2 = true ↔ 'P' ∈ w) ∧ (f.getLsbD 3 = true ↔ 'V' ∈ w))

/-- R250. A DATA line with a decimal value in -2^31 to 2^32 - 1 is the word of that value modulo 2^32, and any other
decimal value is a range error; without a value it is the word 0. -/
def Obligations.DataLineHoldsItsValue : Prop :=
  parseLine "DATA".toList = .ok (.data none 0#32 none) ∧
    ∀ v : Int, parseLine ("DATA ".toList ++ intText v) =
      if -2 ^ 31 ≤ v ∧ v ≤ 2 ^ 32 - 1 then .ok (.data none (BitVec.ofInt 32 v) none) else .error (.rangeError v)

/-- R256. The first definition of a label stays in the table: no later line changes it. -/
def Obligations.FirstDefinitionStays : Prop :=
  ∀ (limit n : Nat) (lines : List Text) (p q : Pass1) (l : Text) (a : Nat),
    p.table.find l = some a → pass1 limit n lines p = .ok q → q.table.find l = some a

/-- R266, R268. With `ERROR_LIMIT = L` an aborted assembly has reported exactly L + 1 errors, a failed one between 1 and
L. -/
def Obligations.ErrorBudgetBoundsTheReports : Prop :=
  ∀ (limit : Nat) (lines : List Text),
    (∀ es, assemble limit lines = .aborted es → es.length = limit + 1) ∧
      ∀ es, assemble limit lines = .failed es → 1 ≤ es.length ∧ es.length ≤ limit

/-- R255, R258 to R261, R269, R270. In an assembly without errors, the line that pass 1 gave address k holds word k of the
image: the encoded record of a FULL line, the word of a DATA line, and for a SYMBOLIC line the encoded record with
displacement (label address - k), which fits. The image has one word per non-comment line. -/
def Obligations.ImageWordOfEachLine : Prop :=
  ∀ (limit : Nat) (lines text : List Text) (image : List Word) (table : SymbolTable) (parsed before after : List Parsed)
    (p : Parsed),
    assemble limit lines = .ok text image → symbolTable limit lines = some table →
    parsedLines limit lines = some parsed → parsed = before ++ p :: after →
    image.length = wordsIn parsed ∧
      match p.line with
      | .comment _ _ => True
      | .full _ r _ => image[wordsIn before]? = some r.encode
      | .data _ w _ => image[wordsIn before]? = some w
      | .symbolic _ op c _ tgt symbol _ =>
        ∃ a, table.find symbol = some a ∧ offsetInRange ((a : Int) - wordsIn before) = true ∧
          image[wordsIn before]? = some (rewriteRecord op c tgt ((a : Int) - wordsIn before)).encode

/-- R259 to R261. Run at its own address, a rewritten SYMBOLIC line reaches its label: JUMP goes to the label's address,
and LOAD and STORE access it. -/
def Obligations.RewrittenLineReachesItsLabel : Prop :=
  ∀ (s : State) (c : Flags) (rt : RegIdx) (a : Nat) (k : Nat), a < 2 ^ 31 → s.pc = BitVec.ofNat 32 k → k < 2 ^ 31 →
    s.flags &&& c ≠ 0#4 →
    (∃ t, exec (rewriteRecord .jump c none ((a : Int) - k)).toInstr s = .next t ∧ t.pc = BitVec.ofNat 32 a) ∧
      (a < s.memSize →
        (∃ t, exec (rewriteRecord .load c (some rt) ((a : Int) - k)).toInstr s = .next t ∧
          (rt ≠ 0 → t.readReg rt = Memory.read s.mem a)) ∧
        ∃ t, exec (rewriteRecord .store c (some rt) ((a : Int) - k)).toInstr s = .next t ∧
          Memory.read t.mem a = s.storedValue rt)

/-- R271, R324. After boot and the host's `run`, word k of the image is at address k, every other word reads as memory did
at the start, the PC is the start address, wrapped to a word (log entry 24), and the engine is running.
An image longer than memory is placed whole (log entry 27). -/
def Obligations.BootPlacesTheImage : Prop :=
  ∀ (size : Nat) (image : List Word) (start : Int) (ss : Bool),
    ∃ t, step (State.boot size image start ss) = .next t ∧ t.engine = .running ∧ t.pc = BitVec.ofInt 32 start ∧
      t.singleStep = ss ∧ t.memSize = size ∧ t.host = [] ∧
      (∀ k : Nat, ∀ h : k < image.length, Memory.read t.mem k = image[k]) ∧
      ∀ k : Nat, image.length ≤ k → Memory.read t.mem k = Config.unlistedWord
end

