-- ==== Sys2Proof/Laws/Alu.lean ====
section
/-! SUPPORT. The ALU's arithmetic and flags. -/

namespace Sys2Proof.Machine

/-- The quotient of R10, by sign and magnitude, is the truncated quotient of the integers. -/
theorem truncDiv_eq_tdiv (a b : Int) : truncDiv a b = a.tdiv b := by
  unfold truncDiv
  cases a <;> cases b
  all_goals simp [Int.tdiv, Int.sign_negSucc]
  · rename_i m n
    rcases Nat.eq_zero_or_pos m with rfl | hm
    · simp
    · rcases Nat.eq_zero_or_pos n with rfl | hn
      · simp
      · simp [Int.sign_eq_one_of_pos, hm, hn]
  · rename_i m n
    rcases Nat.eq_zero_or_pos m with rfl | hm
    · simp
    · simp [Int.sign_eq_one_of_pos, hm]
  · rename_i m n
    rcases Nat.eq_zero_or_pos n with rfl | hm
    · simp
    · simp [Int.sign_eq_one_of_pos, hm]

theorem sval_eq_zero (w : Word) : sval w = 0 ↔ w = 0#32 :=
  ⟨fun h => BitVec.eq_of_toInt_eq (by simpa using h), fun h => by rw [h]; rfl⟩

theorem wrap32_add_sval (a x : Int) : wrap32 (a + sval (wrap32 x)) = wrap32 (a + x) := by
  unfold wrap32 sval
  rw [BitVec.ofInt_add, BitVec.ofInt_toInt, ← BitVec.ofInt_add]

/-! ## Flags -/

theorem signFlag_eq_signOf (r : Word) : signFlag r = signOf r := rfl

theorem signFlag_bits (r : Word) :
    (signFlag r).getLsbD 0 = decide (r.toInt < 0) ∧ (signFlag r).getLsbD 1 = decide (r.toInt = 0) ∧
      (signFlag r).getLsbD 2 = decide (0 < r.toInt) ∧ (signFlag r).getLsbD 3 = false := by
  unfold signFlag sval
  rcases lt_trichotomy r.toInt 0 with h | h | h
  · simp [h, Flag.M]; omega
  · simp [h, Flag.Z]
  · have hn : ¬ r.toInt < 0 := by omega
    have hz : r.toInt ≠ 0 := by omega
    rw [if_neg hn, if_neg hz]
    simp [h, hn, hz, Flag.P]

theorem signFlag_oneSign (r : Word) :
    exactlyOneSign (signFlag r) ∧ exactlyOneSign (signFlag r ||| Flag.V) := by
  unfold signFlag exactlyOneSign
  split
  · decide
  · split <;> decide

theorem aluFlags_oneSign (op : Opcode) (b r : Word) : exactlyOneSign (aluFlags op b r) := by
  unfold aluFlags
  split
  · exact (signFlag_oneSign r).2
  · exact (signFlag_oneSign r).1

theorem ne_zero_of_oneSign {f : Flags} (h : exactlyOneSign f) : f ≠ 0#4 := by
  rintro rfl
  revert h
  unfold exactlyOneSign
  decide

theorem predicateHolds_eq_false (f c : Flags) : predicateHolds f c = false ↔ f &&& c = 0#4 := by
  simp [predicateHolds, Flag.never]

end Sys2Proof.Machine
end

