-- ==== Sys2Proof/Laws/Codec.lean ====
section
/-! SUPPORT. The bits of the codec's primitives, and what decoding gives. -/

namespace Sys2Proof

/-- An extracted field, as a bit range of the word. -/
theorem extract_eq_extractLsb' (w : Word) (lo hi : Nat) :
    extract w lo hi = (w.extractLsb' lo (hi - lo + 1)).toNat := by
  simp [extract, BitVec.extractLsb'_toNat, Nat.and_two_pow_sub_one_eq_mod]

theorem extract_lt (w : Word) (lo hi : Nat) : extract w lo hi < 2 ^ (hi - lo + 1) := by
  rw [extract_eq_extractLsb']
  exact BitVec.isLt _

/-- A field read as signed, as a bit range of the word. -/
theorem extractSigned_eq_toInt (w : Word) (lo hi : Nat) :
    extractSigned w lo hi = (w.extractLsb' lo (hi - lo + 1)).toInt := by
  unfold extractSigned
  rw [extract_eq_extractLsb', BitVec.toInt_eq_toNat_cond]
  have h2 : 2 ^ (hi - lo + 1) = 2 * 2 ^ (hi - lo) := by rw [Nat.pow_succ, Nat.mul_comm]
  split <;> split <;> first | (push_cast; rfl) | omega

/-- The bits of an insert: the value's inside the field, the old ones outside. -/
theorem getLsbD_insert (v : Int) (w : Word) (lo hi k : Nat) (hk : k < 32) :
    (insert v w lo hi).getLsbD k =
      if lo ≤ k ∧ k - lo < hi - lo + 1 then (BitVec.ofInt (hi - lo + 1) v).getLsbD (k - lo) else w.getLsbD k := by
  have hv (j : Nat) : (v % 2 ^ (hi - lo + 1)).toNat.testBit j = (BitVec.ofInt (hi - lo + 1) v).getLsbD j := by
    rw [← BitVec.testBit_toNat, BitVec.toNat_ofInt]
    push_cast
    rfl
  simp only [insert, BitVec.getLsbD_or, BitVec.getLsbD_and, BitVec.getLsbD_not, BitVec.getLsbD_ofNat,
    Nat.testBit_shiftLeft, Nat.testBit_two_pow_sub_one, hk, decide_true, Bool.true_and, hv]
  by_cases hlo : lo ≤ k
  · by_cases hn : k - lo < hi - lo + 1
    · simp [hlo, hn]
    · have hb : (BitVec.ofInt (hi - lo + 1) v).getLsbD (k - lo) = false :=
        BitVec.getLsbD_of_ge _ _ (by omega)
      simp [hlo, hn, hb]
  · simp [hlo]

/-- The opcode numbers are read back. -/
theorem Opcode.ofNum_num (op : Opcode) : Opcode.ofNum op.num = some op := by cases op <;> rfl

theorem Opcode.num_of_ofNum {n : Nat} {op : Opcode} (h : Opcode.ofNum n = some op) : n = op.num := by
  unfold Opcode.ofNum at h
  split at h <;> first | (cases h; rfl) | cases h

/-- A decoded record: its fields are the bit ranges of the word. -/
theorem decodeRecord_ok {b : Bool} {w : Word} {r : Record} (h : decodeRecord b w = .ok r) :
    (b && w.getLsbD 31) = false ∧ Opcode.ofNum (extract w 26 30) = some r.opcode ∧
      r = { opcode := r.opcode
            cond := BitVec.ofNat 4 (extract w 22 25)
            rt := Fin.ofNat 16 (extract w 18 21)
            rs1 := Fin.ofNat 16 (extract w 14 17)
            rs2 := Fin.ofNat 16 (extract w 10 13)
            offset := extractSigned w 0 9 } := by
  unfold decodeRecord at h
  split at h
  · cases h
  · next hb =>
    split at h
    · cases h
    · next op hop =>
      simp only [Except.ok.injEq] at h
      subst h
      exact ⟨by simpa using hb, hop, rfl⟩

/-- A word that does not decode. -/
theorem decodeRecord_error {b : Bool} {w : Word} {e : DecodeError} (h : decodeRecord b w = .error e) :
    ((b && w.getLsbD 31) = true ∧ e = .reservedBitSet) ∨
      (Opcode.ofNum (extract w 26 30) = none ∧ e = .undefinedOpcode (extract w 26 30)) := by
  unfold decodeRecord at h
  split at h
  · next hb => exact .inl ⟨hb, by cases h; rfl⟩
  · split at h
    · next hop => exact .inr ⟨hop, by cases h; rfl⟩
    · cases h

theorem Record.toInstr_isHardware (r : Record) : r.toInstr.isHardware = true := by
  obtain ⟨op, c, t, a, b, d⟩ := r
  cases op <;> rfl

theorem Record.toInstr_wf (r : Record) : r.toInstr.wf = r.wf := by
  obtain ⟨op, c, t, a, b, d⟩ := r
  cases op <;> rfl

theorem Record.encode_toInstr (r : Record) : Sys2Proof.encode r.toInstr = r.encode := by
  obtain ⟨op, c, t, a, b, d⟩ := r
  cases op <;> rfl

/-- A hardware instruction is its record's. -/
theorem Instr.exists_record {i : Instr} (h : i.isHardware = true) : ∃ r : Record, i = r.toInstr := by
  cases i with
  | halt c t a b d => exact ⟨⟨.halt, c, t, a, b, d⟩, rfl⟩
  | load c t a b d => exact ⟨⟨.load, c, t, a, b, d⟩, rfl⟩
  | store c t a b d => exact ⟨⟨.store, c, t, a, b, d⟩, rfl⟩
  | add c t a b d => exact ⟨⟨.add, c, t, a, b, d⟩, rfl⟩
  | sub c t a b d => exact ⟨⟨.sub, c, t, a, b, d⟩, rfl⟩
  | mul c t a b d => exact ⟨⟨.mul, c, t, a, b, d⟩, rfl⟩
  | div c t a b d => exact ⟨⟨.div, c, t, a, b, d⟩, rfl⟩
  | jump c d => cases h
  | data w => cases h

theorem decodeWith_ok {b : Bool} {w : Word} {i : Instr} (h : decodeWith b w = .ok i) :
    ∃ r, decodeRecord b w = .ok r ∧ i = r.toInstr := by
  unfold decodeWith at h
  cases hd : decodeRecord b w with
  | error e => rw [hd] at h; cases h
  | ok r => rw [hd] at h; exact ⟨r, rfl, by cases h; rfl⟩

theorem decodeWith_of_ok {b : Bool} {w : Word} {r : Record} (h : decodeRecord b w = .ok r) :
    decodeWith b w = .ok r.toInstr := by simp [decodeWith, h, Except.map]

/-! ## The layout of R81 as a concatenation -/

/-- The fields of a concatenation in the layout's order. -/
theorem extractLsb'_of_layout (op : BitVec 5) (c t a b : BitVec 4) (d : BitVec 10) :
    let w : Word := 0#1 ++ op ++ c ++ t ++ a ++ b ++ d
    w.extractLsb' 26 5 = op ∧ w.extractLsb' 22 4 = c ∧ w.extractLsb' 18 4 = t ∧ w.extractLsb' 14 4 = a ∧
      w.extractLsb' 10 4 = b ∧ w.extractLsb' 0 10 = d ∧ w.getLsbD 31 = false := by
  refine ⟨?_, ?_, ?_, ?_, ?_, ?_, ?_⟩
  all_goals first
    | (apply BitVec.eq_of_getLsbD_eq
       intro k hk
       simp only [BitVec.getLsbD_extractLsb', BitVec.getLsbD_append]
       interval_cases k <;> rfl)
    | (simp only [BitVec.getLsbD_append]; rfl)

/-- A word without its top bit is its fields put together again. -/
theorem layout_of_extractLsb' (w : Word) :
    w &&& 0x7FFFFFFF#32 = 0#1 ++ w.extractLsb' 26 5 ++ w.extractLsb' 22 4 ++ w.extractLsb' 18 4 ++
      w.extractLsb' 14 4 ++ w.extractLsb' 10 4 ++ w.extractLsb' 0 10 := by
  apply BitVec.eq_of_getLsbD_eq
  intro k hk
  have hk' : k < 32 := hk
  simp only [BitVec.getLsbD_append, BitVec.getLsbD_extractLsb', BitVec.getLsbD_and]
  interval_cases k <;> simp

/-- What decodes is well-formed. -/
theorem decodeRecord_wf {b : Bool} {w : Word} {r : Record} (h : decodeRecord b w = .ok r) : r.wf = true := by
  obtain ⟨_, hop, hr⟩ := decodeRecord_ok h
  rw [hr, Record.wf, extractSigned_eq_toInt]
  have h1 := BitVec.le_toInt (w.extractLsb' 0 10)
  have h2 := BitVec.toInt_lt (x := w.extractLsb' 0 10)
  simp [offsetInRange] at *
  omega

end Sys2Proof
end

