-- ==== Sys2Proof/Laws/State.lean ====
section
/-! SUPPORT. What each update of State does to each field, so that no proof unfolds a record update. -/

namespace Sys2Proof.Machine

variable (s : State)

/-! ## writeReg -/

@[simp] theorem State.writeReg_regs (i : RegIdx) (v : Word) : (s.writeReg i v).regs = RegFile.write s.regs i v := rfl
@[simp] theorem State.writeReg_flags (i : RegIdx) (v : Word) : (s.writeReg i v).flags = s.flags := rfl
@[simp] theorem State.writeReg_halted (i : RegIdx) (v : Word) : (s.writeReg i v).halted = s.halted := rfl
@[simp] theorem State.writeReg_fault (i : RegIdx) (v : Word) : (s.writeReg i v).fault = s.fault := rfl
@[simp] theorem State.writeReg_engine (i : RegIdx) (v : Word) : (s.writeReg i v).engine = s.engine := rfl
@[simp] theorem State.writeReg_singleStep (i : RegIdx) (v : Word) : (s.writeReg i v).singleStep = s.singleStep := rfl
@[simp] theorem State.writeReg_mem (i : RegIdx) (v : Word) : (s.writeReg i v).mem = s.mem := rfl
@[simp] theorem State.writeReg_memSize (i : RegIdx) (v : Word) : (s.writeReg i v).memSize = s.memSize := rfl
@[simp] theorem State.writeReg_reservedBitFaults (i : RegIdx) (v : Word) : (s.writeReg i v).reservedBitFaults = s.reservedBitFaults := rfl
@[simp] theorem State.writeReg_observed (i : RegIdx) (v : Word) : (s.writeReg i v).observed = s.observed := rfl
@[simp] theorem State.writeReg_bus (i : RegIdx) (v : Word) : (s.writeReg i v).bus = s.bus := rfl
@[simp] theorem State.writeReg_host (i : RegIdx) (v : Word) : (s.writeReg i v).host = s.host := rfl
@[simp] theorem State.writeReg_inRange (i : RegIdx) (v : Word) (z : Int) : (s.writeReg i v).inRange z = s.inRange z := rfl

/-! ## incPc -/

@[simp] theorem State.incPc_regs : (s.incPc).regs = RegFile.write s.regs 15 (wrap32 (uval s.pc + 1)) := rfl
@[simp] theorem State.incPc_flags : (s.incPc).flags = s.flags := rfl
@[simp] theorem State.incPc_halted : (s.incPc).halted = s.halted := rfl
@[simp] theorem State.incPc_fault : (s.incPc).fault = s.fault := rfl
@[simp] theorem State.incPc_engine : (s.incPc).engine = s.engine := rfl
@[simp] theorem State.incPc_singleStep : (s.incPc).singleStep = s.singleStep := rfl
@[simp] theorem State.incPc_mem : (s.incPc).mem = s.mem := rfl
@[simp] theorem State.incPc_memSize : (s.incPc).memSize = s.memSize := rfl
@[simp] theorem State.incPc_reservedBitFaults : (s.incPc).reservedBitFaults = s.reservedBitFaults := rfl
@[simp] theorem State.incPc_observed : (s.incPc).observed = s.observed := rfl
@[simp] theorem State.incPc_bus : (s.incPc).bus = s.bus := rfl
@[simp] theorem State.incPc_host : (s.incPc).host = s.host := rfl
@[simp] theorem State.incPc_inRange (z : Int) : (s.incPc).inRange z = s.inRange z := rfl

/-! ## setFlags -/

@[simp] theorem State.setFlags_regs (f : Flags) : (s.setFlags f).regs = s.regs := rfl
@[simp] theorem State.setFlags_flags (f : Flags) : (s.setFlags f).flags = f := rfl
@[simp] theorem State.setFlags_halted (f : Flags) : (s.setFlags f).halted = s.halted := rfl
@[simp] theorem State.setFlags_fault (f : Flags) : (s.setFlags f).fault = s.fault := rfl
@[simp] theorem State.setFlags_engine (f : Flags) : (s.setFlags f).engine = s.engine := rfl
@[simp] theorem State.setFlags_singleStep (f : Flags) : (s.setFlags f).singleStep = s.singleStep := rfl
@[simp] theorem State.setFlags_mem (f : Flags) : (s.setFlags f).mem = s.mem := rfl
@[simp] theorem State.setFlags_memSize (f : Flags) : (s.setFlags f).memSize = s.memSize := rfl
@[simp] theorem State.setFlags_reservedBitFaults (f : Flags) : (s.setFlags f).reservedBitFaults = s.reservedBitFaults := rfl
@[simp] theorem State.setFlags_observed (f : Flags) : (s.setFlags f).observed = s.observed := rfl
@[simp] theorem State.setFlags_bus (f : Flags) : (s.setFlags f).bus = s.bus := rfl
@[simp] theorem State.setFlags_host (f : Flags) : (s.setFlags f).host = s.host := rfl
@[simp] theorem State.setFlags_readReg (f : Flags) (j : RegIdx) : (s.setFlags f).readReg j = s.readReg j := rfl
@[simp] theorem State.setFlags_pc (f : Flags) : (s.setFlags f).pc = s.pc := rfl
@[simp] theorem State.setFlags_inRange (f : Flags) (z : Int) : (s.setFlags f).inRange z = s.inRange z := rfl

/-! ## setHalted -/

@[simp] theorem State.setHalted_regs : (s.setHalted).regs = s.regs := rfl
@[simp] theorem State.setHalted_flags : (s.setHalted).flags = s.flags := rfl
@[simp] theorem State.setHalted_halted : (s.setHalted).halted = true := rfl
@[simp] theorem State.setHalted_fault : (s.setHalted).fault = s.fault := rfl
@[simp] theorem State.setHalted_engine : (s.setHalted).engine = s.engine := rfl
@[simp] theorem State.setHalted_singleStep : (s.setHalted).singleStep = s.singleStep := rfl
@[simp] theorem State.setHalted_mem : (s.setHalted).mem = s.mem := rfl
@[simp] theorem State.setHalted_memSize : (s.setHalted).memSize = s.memSize := rfl
@[simp] theorem State.setHalted_reservedBitFaults : (s.setHalted).reservedBitFaults = s.reservedBitFaults := rfl
@[simp] theorem State.setHalted_observed : (s.setHalted).observed = s.observed := rfl
@[simp] theorem State.setHalted_bus : (s.setHalted).bus = s.bus := rfl
@[simp] theorem State.setHalted_host : (s.setHalted).host = s.host := rfl
@[simp] theorem State.setHalted_readReg (j : RegIdx) : (s.setHalted).readReg j = s.readReg j := rfl
@[simp] theorem State.setHalted_pc : (s.setHalted).pc = s.pc := rfl
@[simp] theorem State.setHalted_inRange (z : Int) : (s.setHalted).inRange z = s.inRange z := rfl

/-! ## setEngine -/

@[simp] theorem State.setEngine_regs (e : Engine) : (s.setEngine e).regs = s.regs := rfl
@[simp] theorem State.setEngine_flags (e : Engine) : (s.setEngine e).flags = s.flags := rfl
@[simp] theorem State.setEngine_halted (e : Engine) : (s.setEngine e).halted = s.halted := rfl
@[simp] theorem State.setEngine_fault (e : Engine) : (s.setEngine e).fault = s.fault := rfl
@[simp] theorem State.setEngine_engine (e : Engine) : (s.setEngine e).engine = e := rfl
@[simp] theorem State.setEngine_singleStep (e : Engine) : (s.setEngine e).singleStep = s.singleStep := rfl
@[simp] theorem State.setEngine_mem (e : Engine) : (s.setEngine e).mem = s.mem := rfl
@[simp] theorem State.setEngine_memSize (e : Engine) : (s.setEngine e).memSize = s.memSize := rfl
@[simp] theorem State.setEngine_reservedBitFaults (e : Engine) : (s.setEngine e).reservedBitFaults = s.reservedBitFaults := rfl
@[simp] theorem State.setEngine_observed (e : Engine) : (s.setEngine e).observed = s.observed := rfl
@[simp] theorem State.setEngine_bus (e : Engine) : (s.setEngine e).bus = s.bus := rfl
@[simp] theorem State.setEngine_host (e : Engine) : (s.setEngine e).host = s.host := rfl
@[simp] theorem State.setEngine_readReg (e : Engine) (j : RegIdx) : (s.setEngine e).readReg j = s.readReg j := rfl
@[simp] theorem State.setEngine_pc (e : Engine) : (s.setEngine e).pc = s.pc := rfl
@[simp] theorem State.setEngine_inRange (e : Engine) (z : Int) : (s.setEngine e).inRange z = s.inRange z := rfl

/-! ## setSingleStep -/

@[simp] theorem State.setSingleStep_regs (b : Bool) : (s.setSingleStep b).regs = s.regs := rfl
@[simp] theorem State.setSingleStep_flags (b : Bool) : (s.setSingleStep b).flags = s.flags := rfl
@[simp] theorem State.setSingleStep_halted (b : Bool) : (s.setSingleStep b).halted = s.halted := rfl
@[simp] theorem State.setSingleStep_fault (b : Bool) : (s.setSingleStep b).fault = s.fault := rfl
@[simp] theorem State.setSingleStep_engine (b : Bool) : (s.setSingleStep b).engine = s.engine := rfl
@[simp] theorem State.setSingleStep_singleStep (b : Bool) : (s.setSingleStep b).singleStep = b := rfl
@[simp] theorem State.setSingleStep_mem (b : Bool) : (s.setSingleStep b).mem = s.mem := rfl
@[simp] theorem State.setSingleStep_memSize (b : Bool) : (s.setSingleStep b).memSize = s.memSize := rfl
@[simp] theorem State.setSingleStep_reservedBitFaults (b : Bool) : (s.setSingleStep b).reservedBitFaults = s.reservedBitFaults := rfl
@[simp] theorem State.setSingleStep_observed (b : Bool) : (s.setSingleStep b).observed = s.observed := rfl
@[simp] theorem State.setSingleStep_bus (b : Bool) : (s.setSingleStep b).bus = s.bus := rfl
@[simp] theorem State.setSingleStep_host (b : Bool) : (s.setSingleStep b).host = s.host := rfl
@[simp] theorem State.setSingleStep_readReg (b : Bool) (j : RegIdx) : (s.setSingleStep b).readReg j = s.readReg j := rfl
@[simp] theorem State.setSingleStep_pc (b : Bool) : (s.setSingleStep b).pc = s.pc := rfl
@[simp] theorem State.setSingleStep_inRange (b : Bool) (z : Int) : (s.setSingleStep b).inRange z = s.inRange z := rfl

/-! ## setHost -/

@[simp] theorem State.setHost_regs (h : List (Option HostEvent)) : (s.setHost h).regs = s.regs := rfl
@[simp] theorem State.setHost_flags (h : List (Option HostEvent)) : (s.setHost h).flags = s.flags := rfl
@[simp] theorem State.setHost_halted (h : List (Option HostEvent)) : (s.setHost h).halted = s.halted := rfl
@[simp] theorem State.setHost_fault (h : List (Option HostEvent)) : (s.setHost h).fault = s.fault := rfl
@[simp] theorem State.setHost_engine (h : List (Option HostEvent)) : (s.setHost h).engine = s.engine := rfl
@[simp] theorem State.setHost_singleStep (h : List (Option HostEvent)) : (s.setHost h).singleStep = s.singleStep := rfl
@[simp] theorem State.setHost_mem (h : List (Option HostEvent)) : (s.setHost h).mem = s.mem := rfl
@[simp] theorem State.setHost_memSize (h : List (Option HostEvent)) : (s.setHost h).memSize = s.memSize := rfl
@[simp] theorem State.setHost_reservedBitFaults (h : List (Option HostEvent)) : (s.setHost h).reservedBitFaults = s.reservedBitFaults := rfl
@[simp] theorem State.setHost_observed (h : List (Option HostEvent)) : (s.setHost h).observed = s.observed := rfl
@[simp] theorem State.setHost_bus (h : List (Option HostEvent)) : (s.setHost h).bus = s.bus := rfl
@[simp] theorem State.setHost_host (h : List (Option HostEvent)) : (s.setHost h).host = h := rfl
@[simp] theorem State.setHost_readReg (h : List (Option HostEvent)) (j : RegIdx) : (s.setHost h).readReg j = s.readReg j := rfl
@[simp] theorem State.setHost_pc (h : List (Option HostEvent)) : (s.setHost h).pc = s.pc := rfl
@[simp] theorem State.setHost_inRange (h : List (Option HostEvent)) (z : Int) : (s.setHost h).inRange z = s.inRange z := rfl

/-! ## raiseFault -/

@[simp] theorem State.raiseFault_regs (c : FaultStatus) : (s.raiseFault c).regs = s.regs := rfl
@[simp] theorem State.raiseFault_flags (c : FaultStatus) : (s.raiseFault c).flags = s.flags := rfl
@[simp] theorem State.raiseFault_halted (c : FaultStatus) : (s.raiseFault c).halted = s.halted := rfl
@[simp] theorem State.raiseFault_fault (c : FaultStatus) : (s.raiseFault c).fault = c := rfl
@[simp] theorem State.raiseFault_engine (c : FaultStatus) : (s.raiseFault c).engine = .faulted := rfl
@[simp] theorem State.raiseFault_singleStep (c : FaultStatus) : (s.raiseFault c).singleStep = s.singleStep := rfl
@[simp] theorem State.raiseFault_mem (c : FaultStatus) : (s.raiseFault c).mem = s.mem := rfl
@[simp] theorem State.raiseFault_memSize (c : FaultStatus) : (s.raiseFault c).memSize = s.memSize := rfl
@[simp] theorem State.raiseFault_reservedBitFaults (c : FaultStatus) : (s.raiseFault c).reservedBitFaults = s.reservedBitFaults := rfl
@[simp] theorem State.raiseFault_observed (c : FaultStatus) : (s.raiseFault c).observed = s.observed := rfl
@[simp] theorem State.raiseFault_bus (c : FaultStatus) : (s.raiseFault c).bus = s.bus := rfl
@[simp] theorem State.raiseFault_host (c : FaultStatus) : (s.raiseFault c).host = s.host := rfl
@[simp] theorem State.raiseFault_readReg (c : FaultStatus) (j : RegIdx) : (s.raiseFault c).readReg j = s.readReg j := rfl
@[simp] theorem State.raiseFault_pc (c : FaultStatus) : (s.raiseFault c).pc = s.pc := rfl
@[simp] theorem State.raiseFault_inRange (c : FaultStatus) (z : Int) : (s.raiseFault c).inRange z = s.inRange z := rfl

/-! ## setWord -/

@[simp] theorem State.setWord_regs (a : Nat) (v : Word) : (s.setWord a v).regs = s.regs := rfl
@[simp] theorem State.setWord_flags (a : Nat) (v : Word) : (s.setWord a v).flags = s.flags := rfl
@[simp] theorem State.setWord_halted (a : Nat) (v : Word) : (s.setWord a v).halted = s.halted := rfl
@[simp] theorem State.setWord_fault (a : Nat) (v : Word) : (s.setWord a v).fault = s.fault := rfl
@[simp] theorem State.setWord_engine (a : Nat) (v : Word) : (s.setWord a v).engine = s.engine := rfl
@[simp] theorem State.setWord_singleStep (a : Nat) (v : Word) : (s.setWord a v).singleStep = s.singleStep := rfl
@[simp] theorem State.setWord_mem (a : Nat) (v : Word) : (s.setWord a v).mem = Memory.write s.mem a v := rfl
@[simp] theorem State.setWord_memSize (a : Nat) (v : Word) : (s.setWord a v).memSize = s.memSize := rfl
@[simp] theorem State.setWord_reservedBitFaults (a : Nat) (v : Word) : (s.setWord a v).reservedBitFaults = s.reservedBitFaults := rfl
@[simp] theorem State.setWord_observed (a : Nat) (v : Word) : (s.setWord a v).observed = s.observed := rfl
@[simp] theorem State.setWord_bus (a : Nat) (v : Word) : (s.setWord a v).bus = s.bus := rfl
@[simp] theorem State.setWord_host (a : Nat) (v : Word) : (s.setWord a v).host = s.host := rfl
@[simp] theorem State.setWord_readReg (a : Nat) (v : Word) (j : RegIdx) : (s.setWord a v).readReg j = s.readReg j := rfl
@[simp] theorem State.setWord_pc (a : Nat) (v : Word) : (s.setWord a v).pc = s.pc := rfl
@[simp] theorem State.setWord_inRange (a : Nat) (v : Word) (z : Int) : (s.setWord a v).inRange z = s.inRange z := rfl

/-! ## logBus -/

@[simp] theorem State.logBus_regs (x : BusAccess) : (s.logBus x).regs = s.regs := rfl
@[simp] theorem State.logBus_flags (x : BusAccess) : (s.logBus x).flags = s.flags := rfl
@[simp] theorem State.logBus_halted (x : BusAccess) : (s.logBus x).halted = s.halted := rfl
@[simp] theorem State.logBus_fault (x : BusAccess) : (s.logBus x).fault = s.fault := rfl
@[simp] theorem State.logBus_engine (x : BusAccess) : (s.logBus x).engine = s.engine := rfl
@[simp] theorem State.logBus_singleStep (x : BusAccess) : (s.logBus x).singleStep = s.singleStep := rfl
@[simp] theorem State.logBus_mem (x : BusAccess) : (s.logBus x).mem = s.mem := rfl
@[simp] theorem State.logBus_memSize (x : BusAccess) : (s.logBus x).memSize = s.memSize := rfl
@[simp] theorem State.logBus_reservedBitFaults (x : BusAccess) : (s.logBus x).reservedBitFaults = s.reservedBitFaults := rfl
@[simp] theorem State.logBus_observed (x : BusAccess) : (s.logBus x).observed = s.observed := rfl
@[simp] theorem State.logBus_bus (x : BusAccess) : (s.logBus x).bus = s.bus ++ [x] := rfl
@[simp] theorem State.logBus_host (x : BusAccess) : (s.logBus x).host = s.host := rfl
@[simp] theorem State.logBus_readReg (x : BusAccess) (j : RegIdx) : (s.logBus x).readReg j = s.readReg j := rfl
@[simp] theorem State.logBus_pc (x : BusAccess) : (s.logBus x).pc = s.pc := rfl
@[simp] theorem State.logBus_inRange (x : BusAccess) (z : Int) : (s.logBus x).inRange z = s.inRange z := rfl

/-! ## observe -/

@[simp] theorem State.observe_regs (o : Observation) : (s.observe o).regs = s.regs := rfl
@[simp] theorem State.observe_flags (o : Observation) : (s.observe o).flags = s.flags := rfl
@[simp] theorem State.observe_halted (o : Observation) : (s.observe o).halted = s.halted := rfl
@[simp] theorem State.observe_fault (o : Observation) : (s.observe o).fault = s.fault := rfl
@[simp] theorem State.observe_engine (o : Observation) : (s.observe o).engine = s.engine := rfl
@[simp] theorem State.observe_singleStep (o : Observation) : (s.observe o).singleStep = s.singleStep := rfl
@[simp] theorem State.observe_mem (o : Observation) : (s.observe o).mem = s.mem := rfl
@[simp] theorem State.observe_memSize (o : Observation) : (s.observe o).memSize = s.memSize := rfl
@[simp] theorem State.observe_reservedBitFaults (o : Observation) : (s.observe o).reservedBitFaults = s.reservedBitFaults := rfl
@[simp] theorem State.observe_observed (o : Observation) : (s.observe o).observed = s.observed ++ [o] := rfl
@[simp] theorem State.observe_bus (o : Observation) : (s.observe o).bus = s.bus := rfl
@[simp] theorem State.observe_host (o : Observation) : (s.observe o).host = s.host := rfl
@[simp] theorem State.observe_readReg (o : Observation) (j : RegIdx) : (s.observe o).readReg j = s.readReg j := rfl
@[simp] theorem State.observe_pc (o : Observation) : (s.observe o).pc = s.pc := rfl
@[simp] theorem State.observe_inRange (o : Observation) (z : Int) : (s.observe o).inRange z = s.inRange z := rfl

end Sys2Proof.Machine
end

