-- ==== Sys2Proof/Laws/Memory.lean ====
section
/-! SUPPORT. Reads, writes and the canonical form of memory. -/

namespace Sys2Proof.Machine

theorem Memory.read_erase_same (m : Memory) (a : Nat) : Memory.read (Memory.erase m a) a = Config.unlistedWord := by
  induction m with
  | nil => rfl
  | cons c m ih =>
    obtain ⟨b, w⟩ := c
    by_cases h : b = a
    · simpa [Memory.erase, h] using ih
    · simpa [Memory.erase, h, Memory.read] using ih

theorem Memory.read_erase_other (m : Memory) {a b : Nat} (h : b ≠ a) :
    Memory.read (Memory.erase m a) b = Memory.read m b := by
  induction m with
  | nil => rfl
  | cons c m ih =>
    obtain ⟨d, w⟩ := c
    by_cases hd : d = a
    · have : d ≠ b := fun e => h (e.symm.trans hd)
      simpa [Memory.erase, hd, Memory.read, this, Ne.symm h] using ih
    · by_cases hb : d = b
      · simp [Memory.erase, Memory.read, hb, h]
      · simpa [Memory.erase, hd, Memory.read, hb] using ih

theorem Memory.read_insertCell_same (m : Memory) (a : Nat) (v : Word) :
    Memory.read (Memory.insertCell m a v) a = v := by
  induction m with
  | nil => simp [Memory.insertCell, Memory.read]
  | cons c m ih =>
    obtain ⟨b, w⟩ := c
    by_cases h : b < a
    · simp [Memory.insertCell, h, Memory.read, Nat.ne_of_lt h, ih]
    · simp [Memory.insertCell, h, Memory.read]

theorem Memory.read_insertCell_other (m : Memory) {a b : Nat} (h : b ≠ a) (v : Word) :
    Memory.read (Memory.insertCell m a v) b = Memory.read m b := by
  induction m with
  | nil => simp [Memory.insertCell, Memory.read, Ne.symm h]
  | cons c m ih =>
    obtain ⟨d, w⟩ := c
    by_cases hd : d < a
    · simp [Memory.insertCell, hd, Memory.read, ih]
    · simp [Memory.insertCell, hd, Memory.read, Ne.symm h]

theorem Memory.read_write_same (m : Memory) (a : Nat) (v : Word) : Memory.read (Memory.write m a v) a = v := by
  unfold Memory.write
  split
  · next h => rw [Memory.read_erase_same, h]
  · exact Memory.read_insertCell_same _ _ _

theorem Memory.read_write_other (m : Memory) {a b : Nat} (h : b ≠ a) (v : Word) :
    Memory.read (Memory.write m a v) b = Memory.read m b := by
  unfold Memory.write
  split
  · exact Memory.read_erase_other m h
  · rw [Memory.read_insertCell_other _ h, Memory.read_erase_other m h]

/-! ## The canonical form -/

theorem Memory.wf_cons {a : Nat} {v : Word} {m : Memory} :
    Memory.wf ((a, v) :: m) = true ↔ v ≠ Config.unlistedWord ∧ (∀ c ∈ m, a < c.1) ∧ Memory.wf m = true := by
  simp [Memory.wf, and_assoc]

theorem Memory.erase_wf {m : Memory} (h : Memory.wf m = true) (a : Nat) : Memory.wf (Memory.erase m a) = true := by
  induction m with
  | nil => rfl
  | cons c m ih =>
    obtain ⟨b, w⟩ := c
    obtain ⟨hv, hlt, hm⟩ := Memory.wf_cons.mp h
    by_cases hb : b = a
    · simpa [Memory.erase, hb] using ih hm
    · have : Memory.erase ((b, w) :: m) a = (b, w) :: Memory.erase m a := by simp [Memory.erase, hb]
      rw [this]
      exact Memory.wf_cons.mpr ⟨hv, fun c hc => hlt c (List.mem_of_mem_filter hc), ih hm⟩

theorem Memory.mem_insertCell {m : Memory} {a : Nat} {v : Word} {c : WordCell} :
    c ∈ Memory.insertCell m a v ↔ c = (a, v) ∨ c ∈ m := by
  induction m with
  | nil => simp [Memory.insertCell]
  | cons d m ih =>
    obtain ⟨b, w⟩ := d
    by_cases h : b < a
    · simp [Memory.insertCell, h, ih]
      tauto
    · simp [Memory.insertCell, h]

theorem Memory.insertCell_wf {m : Memory} (h : Memory.wf m = true) {a : Nat} {v : Word} (hv : v ≠ Config.unlistedWord)
    (ha : ∀ c ∈ m, c.1 ≠ a) : Memory.wf (Memory.insertCell m a v) = true := by
  induction m with
  | nil => simp [Memory.insertCell, Memory.wf, hv]
  | cons d m ih =>
    obtain ⟨b, w⟩ := d
    obtain ⟨hw, hlt, hm⟩ := Memory.wf_cons.mp h
    have hb : b ≠ a := ha (b, w) (by simp)
    by_cases hba : b < a
    · simp only [Memory.insertCell, hba, if_true]
      refine Memory.wf_cons.mpr ⟨hw, ?_, ih hm (fun c hc => ha c (by simp [hc]))⟩
      intro c hc
      rcases Memory.mem_insertCell.mp hc with rfl | hc
      · exact hba
      · exact hlt c hc
    · simp only [Memory.insertCell, hba, if_false]
      refine Memory.wf_cons.mpr ⟨hv, ?_, h⟩
      intro c hc
      rcases List.mem_cons.mp hc with rfl | hc
      · exact lt_of_le_of_ne (not_lt.mp hba) (Ne.symm hb)
      · exact lt_of_le_of_lt (not_lt.mp hba) (hlt c hc)

theorem Memory.erase_ne {m : Memory} {a : Nat} {c : WordCell} (h : c ∈ Memory.erase m a) : c.1 ≠ a := by
  simpa using (List.mem_filter.mp h).2

/-- Every write keeps the canonical form. -/
theorem Memory.write_wf {m : Memory} (h : Memory.wf m = true) (a : Nat) (v : Word) :
    Memory.wf (Memory.write m a v) = true := by
  unfold Memory.write
  split
  · exact Memory.erase_wf h a
  · next hv => exact Memory.insertCell_wf (Memory.erase_wf h a) hv (fun c hc => Memory.erase_ne hc)

/-- The cells after a write: the written one, or old ones. -/
theorem Memory.mem_write {m : Memory} {a : Nat} {v : Word} {c : WordCell} (h : c ∈ Memory.write m a v) :
    c = (a, v) ∨ c ∈ m := by
  unfold Memory.write at h
  split at h
  · exact .inr (List.mem_of_mem_filter h)
  · rcases Memory.mem_insertCell.mp h with h | h
    · exact .inl h
    · exact .inr (List.mem_of_mem_filter h)

/-- Loading an image keeps the canonical form. -/
theorem Memory.load_wf {m : Memory} (h : Memory.wf m = true) (a : Nat) (ws : List Word) :
    Memory.wf (Memory.load m a ws) = true := by
  induction ws generalizing m a with
  | nil => exact h
  | cons w ws ih => exact ih (Memory.write_wf h a w) (a + 1)

theorem State.reset_mem_wf : Memory.wf State.reset.mem = true := rfl

theorem Memory.read_of_lt {m : Memory} {a : Nat} (h : ∀ c ∈ m, a < c.1) : Memory.read m a = Config.unlistedWord := by
  induction m with
  | nil => rfl
  | cons c m ih =>
    obtain ⟨b, w⟩ := c
    have hb : a < b := h (b, w) (by simp)
    simp [Memory.read, Nat.ne_of_gt hb, ih (fun c hc => h c (by simp [hc]))]

/-- Equal memories are equal data: two canonical memories that read alike are the same list. -/
theorem Memory.ext_read {m m' : Memory} (h : Memory.wf m = true) (h' : Memory.wf m' = true)
    (hr : ∀ a, Memory.read m a = Memory.read m' a) : m = m' := by
  induction m generalizing m' with
  | nil =>
    cases m' with
    | nil => rfl
    | cons c m' =>
      obtain ⟨b, w⟩ := c
      exact absurd (by simpa [Memory.read] using (hr b).symm) (Memory.wf_cons.mp h').1
  | cons c m ih =>
    obtain ⟨a, v⟩ := c
    obtain ⟨hv, hlt, hm⟩ := Memory.wf_cons.mp h
    cases m' with
    | nil => exact absurd (by simpa [Memory.read] using hr a) hv
    | cons c' m' =>
      obtain ⟨b, w⟩ := c'
      obtain ⟨hw, hlt', hm'⟩ := Memory.wf_cons.mp h'
      have hab : a = b := by
        rcases lt_trichotomy a b with hlt1 | heq | hgt
        · have := hr a
          rw [Memory.read_of_lt (m := (b, w) :: m') (by
            intro c hc
            rcases List.mem_cons.mp hc with rfl | hc
            · exact hlt1
            · exact lt_trans hlt1 (hlt' c hc))] at this
          exact absurd (by simpa [Memory.read] using this) hv
        · exact heq
        · have := hr b
          rw [Memory.read_of_lt (m := (a, v) :: m) (by
            intro c hc
            rcases List.mem_cons.mp hc with rfl | hc
            · exact hgt
            · exact lt_trans hgt (hlt c hc))] at this
          exact absurd (by simpa [Memory.read] using this.symm) hw
      subst hab
      have hvw : v = w := by simpa [Memory.read] using hr a
      subst hvw
      congr 1
      refine ih hm hm' (fun x => ?_)
      have := hr x
      by_cases hx : a = x
      · subst hx
        rw [Memory.read_of_lt hlt, Memory.read_of_lt hlt']
      · simpa [Memory.read, hx] using this

end Sys2Proof.Machine
end

