-- ==== Sys2Proof/Laws/Registers.lean ====
section
/-! SUPPORT. Reads and writes of the register file. -/

namespace Sys2Proof.Machine

theorem RegFile.read_zero (r : RegFile) : RegFile.read r 0 = 0#32 := by simp [RegFile.read]

theorem RegFile.write_zero (r : RegFile) (v : Word) : RegFile.write r 0 v = r := by simp [RegFile.write]

theorem RegFile.read_write_same (r : RegFile) {i : RegIdx} (h : i ≠ 0) (v : Word) :
    RegFile.read (RegFile.write r i v) i = v := by
  have hi : i.val ≠ 0 := fun e => h (Fin.ext e)
  simp [RegFile.read, RegFile.write, hi]

theorem RegFile.read_write_other (r : RegFile) {i j : RegIdx} (h : j ≠ i) (v : Word) :
    RegFile.read (RegFile.write r i v) j = RegFile.read r j := by
  have hij : j.val ≠ i.val := fun e => h (Fin.ext e)
  unfold RegFile.read RegFile.write
  by_cases hj : j.val = 0
  · simp [hj]
  · by_cases hi : i.val = 0
    · simp [hi]
    · have hne : i.val - 1 ≠ j.val - 1 := by omega
      simp [hi, hj, hne]

/-- Two register files that read alike are equal: R0 holds no state. -/
theorem RegFile.ext_read {r r' : RegFile} (h : ∀ j : RegIdx, RegFile.read r j = RegFile.read r' j) : r = r' := by
  apply Vector.ext
  intro k hk
  have := h ⟨k + 1, by omega⟩
  simpa [RegFile.read] using this

theorem RegFile.write_write_same (r : RegFile) (i : RegIdx) (v w : Word) :
    RegFile.write (RegFile.write r i v) i w = RegFile.write r i w := by
  unfold RegFile.write
  by_cases hi : i.val = 0
  · simp [hi]
  · simp [hi]

theorem State.readReg_zero (s : State) : s.readReg 0 = 0#32 := RegFile.read_zero _

theorem State.readReg_writeReg_same (s : State) {i : RegIdx} (h : i ≠ 0) (v : Word) :
    (s.writeReg i v).readReg i = v := RegFile.read_write_same _ h v

theorem State.readReg_writeReg_other (s : State) {i j : RegIdx} (h : j ≠ i) (v : Word) :
    (s.writeReg i v).readReg j = s.readReg j := RegFile.read_write_other _ h v

theorem State.writeReg_zero (s : State) (v : Word) : s.writeReg 0 v = s := by
  simp [State.writeReg, RegFile.write_zero]

theorem State.pc_writeReg_pc (s : State) (v : Word) : (s.writeReg 15 v).pc = v :=
  s.readReg_writeReg_same (by decide) v

theorem State.pc_writeReg_other (s : State) {i : RegIdx} (h : i ≠ 15) (v : Word) : (s.writeReg i v).pc = s.pc :=
  s.readReg_writeReg_other (Ne.symm h) v

theorem State.pc_incPc (s : State) : s.incPc.pc = wrap32 (uval s.pc + 1) := s.pc_writeReg_pc _

theorem State.readReg_incPc (s : State) {j : RegIdx} (h : j ≠ 15) : s.incPc.readReg j = s.readReg j :=
  s.readReg_writeReg_other h _

/-- The increment as word arithmetic. -/
theorem wrap32_uval_add_one (w : Word) : wrap32 (uval w + 1) = w + 1#32 := by
  apply BitVec.eq_of_toNat_eq
  simp [wrap32, uval, BitVec.toNat_ofInt, BitVec.toNat_add]
  omega

end Sys2Proof.Machine
end

