-- ==== Sys2Proof/Laws/Exec.lean ====
section
/-! SUPPORT. What each shared operation of the meanings and of the step can do, said once. -/

namespace Sys2Proof.Machine

variable {s t : State} {cond : Flags}

/-! ## Memory accesses -/

theorem State.inRange_iff (s : State) (a : Int) : s.inRange a = true ↔ 0 ≤ a ∧ a < s.memSize := by
  simp [State.inRange]

theorem State.memGet_eq_some {k : AccessKind} {a : Int} {v : Word} (h : s.memGet k a = some (v, t)) :
    s.inRange a = true ∧ v = Memory.read s.mem a.toNat ∧ t = s.logBus (.get k a.toNat v) := by
  unfold State.memGet at h
  split at h
  · next hr =>
    simp only [Option.some.injEq, Prod.mk.injEq] at h
    obtain ⟨rfl, rfl⟩ := h
    exact ⟨hr, rfl, rfl⟩
  · cases h

theorem State.memGet_of_inRange {a : Int} (h : s.inRange a = true) (k : AccessKind) :
    s.memGet k a = some (Memory.read s.mem a.toNat, s.logBus (.get k a.toNat (Memory.read s.mem a.toNat))) := by
  simp [State.memGet, h]

theorem State.memGet_eq_none {k : AccessKind} {a : Int} : s.memGet k a = none ↔ s.inRange a = false := by
  unfold State.memGet
  cases s.inRange a <;> simp

theorem State.memPut_eq_some {a : Int} {v : Word} (h : s.memPut a v = some t) :
    s.inRange a = true ∧ t = (s.setWord a.toNat v).logBus (.put a.toNat v) := by
  unfold State.memPut at h
  split at h
  · next hr => exact ⟨hr, by simpa using h.symm⟩
  · cases h

theorem State.memPut_of_inRange {a : Int} (h : s.inRange a = true) (v : Word) :
    s.memPut a v = some ((s.setWord a.toNat v).logBus (.put a.toNat v)) := by
  simp [State.memPut, h]

theorem State.memPut_eq_none {a : Int} {v : Word} : s.memPut a v = none ↔ s.inRange a = false := by
  unfold State.memPut
  cases s.inRange a <;> simp

/-! ## The predicate gate -/

theorem predicateHolds_iff (f c : Flags) : predicateHolds f c = true ↔ f &&& c ≠ 0#4 := by
  simp [predicateHolds, Flag.never]

theorem gate_holds {body : State → Host.Outcome State Fault Refusal} (h : predicateHolds s.flags cond = true) :
    gate cond s body = body s := by simp [gate, h]

theorem gate_skips {body : State → Host.Outcome State Fault Refusal} (h : predicateHolds s.flags cond = false) :
    gate cond s body = .next s.incPc := by simp [gate, h]

/-- What a gated instruction can answer: the skip, or its body's answer. -/
theorem gate_next {body : State → Host.Outcome State Fault Refusal} (h : gate cond s body = .next t) :
    (predicateHolds s.flags cond = false ∧ t = s.incPc) ∨
      (predicateHolds s.flags cond = true ∧ body s = .next t) := by
  cases hp : predicateHolds s.flags cond with
  | true =>
    rw [gate_holds hp] at h
    exact .inr ⟨rfl, h⟩
  | false =>
    rw [gate_skips hp] at h
    cases h
    exact .inl ⟨rfl, rfl⟩

/-! ## The execute phase -/

section Issue
variable (s : State) (op : Opcode) (rs1 rs2 : RegIdx) (d : Int)

@[simp] theorem State.issue_regs : (s.issue op rs1 rs2 d).regs = s.incPc.regs := rfl
@[simp] theorem State.issue_flags :
    (s.issue op rs1 rs2 d).flags = aluFlags op (s.operand2 rs2 d) (s.result op rs1 rs2 d) := rfl
@[simp] theorem State.issue_halted : (s.issue op rs1 rs2 d).halted = s.halted := rfl
@[simp] theorem State.issue_fault : (s.issue op rs1 rs2 d).fault = s.fault := rfl
@[simp] theorem State.issue_engine : (s.issue op rs1 rs2 d).engine = s.engine := rfl
@[simp] theorem State.issue_singleStep : (s.issue op rs1 rs2 d).singleStep = s.singleStep := rfl
@[simp] theorem State.issue_mem : (s.issue op rs1 rs2 d).mem = s.mem := rfl
@[simp] theorem State.issue_memSize : (s.issue op rs1 rs2 d).memSize = s.memSize := rfl
@[simp] theorem State.issue_reservedBitFaults :
    (s.issue op rs1 rs2 d).reservedBitFaults = s.reservedBitFaults := rfl
@[simp] theorem State.issue_observed : (s.issue op rs1 rs2 d).observed = s.observed := rfl
@[simp] theorem State.issue_bus : (s.issue op rs1 rs2 d).bus = s.bus := rfl
@[simp] theorem State.issue_host : (s.issue op rs1 rs2 d).host = s.host := rfl
@[simp] theorem State.issue_inRange (a : Int) : (s.issue op rs1 rs2 d).inRange a = s.inRange a := rfl
@[simp] theorem State.issue_pc : (s.issue op rs1 rs2 d).pc = s.incPc.pc := rfl
@[simp] theorem State.issue_readReg (j : RegIdx) : (s.issue op rs1 rs2 d).readReg j = s.incPc.readReg j := rfl

end Issue

/-! ## The meanings, by their shared shapes -/

/-- The answer of an arithmetic instruction is always a next state: the skip, or the target written. -/
theorem arithmetic_next (op : Opcode) (cond : Flags) (rt rs1 rs2 : RegIdx) (d : Int) (s : State) :
    arithmetic op cond rt rs1 rs2 d s =
      .next (if predicateHolds s.flags cond then (s.issue op rs1 rs2 d).writeReg rt (s.result op rs1 rs2 d)
        else s.incPc) := by
  unfold arithmetic gate
  split <;> rfl

/-- The answer of HALT. -/
theorem execHalt_next (cond : Flags) (rt rs1 rs2 : RegIdx) (d : Int) (s : State) :
    execHalt cond rt rs1 rs2 d s =
      .next (if predicateHolds s.flags cond then (s.issue .halt rs1 rs2 d).setHalted else s.incPc) := by
  unfold execHalt gate
  split <;> rfl

/-- The answer of LOAD: the skip, BoundsError, or the word read and the target written. -/
theorem execLoad_next (cond : Flags) (rt rs1 rs2 : RegIdx) (d : Int) (s : State) :
    execLoad cond rt rs1 rs2 d s =
      .next (if predicateHolds s.flags cond then
          if s.inRange (s.effectiveAddress .load rs1 rs2 d) then
            ((s.issue .load rs1 rs2 d).logBus (.get .load (s.effectiveAddress .load rs1 rs2 d).toNat
              (Memory.read s.mem (s.effectiveAddress .load rs1 rs2 d).toNat))).writeReg rt
                (Memory.read s.mem (s.effectiveAddress .load rs1 rs2 d).toNat)
          else (s.issue .load rs1 rs2 d).raiseFault (.boundsError (s.effectiveAddress .load rs1 rs2 d) .load)
        else s.incPc) := by
  unfold execLoad gate
  split
  · cases h : s.inRange (s.effectiveAddress .load rs1 rs2 d) <;>
      simp [State.memGet, h]
  · rfl

/-- The answer of STORE: the skip, BoundsError, or the word put. -/
theorem execStore_next (cond : Flags) (rt rs1 rs2 : RegIdx) (d : Int) (s : State) :
    execStore cond rt rs1 rs2 d s =
      .next (if predicateHolds s.flags cond then
          if s.inRange (s.effectiveAddress .store rs1 rs2 d) then
            ((s.issue .store rs1 rs2 d).setWord (s.effectiveAddress .store rs1 rs2 d).toNat
              (s.incPc.readReg rt)).logBus
                (.put (s.effectiveAddress .store rs1 rs2 d).toNat (s.incPc.readReg rt))
          else (s.issue .store rs1 rs2 d).raiseFault (.boundsError (s.effectiveAddress .store rs1 rs2 d) .store)
        else s.incPc) := by
  unfold execStore gate
  split
  · cases h : s.inRange (s.effectiveAddress .store rs1 rs2 d) <;>
      simp [State.memPut, h]
  · rfl

theorem exec_toInstr (r : Record) (s : State) : exec r.toInstr s = execRecord r s := by
  obtain ⟨op, c, t, a, b, d⟩ := r
  cases op <;> rfl

/-- Every instruction answers a next state: the machine's faults are next states (R290, R292). -/
theorem execRecord_next (r : Record) (s : State) : ∃ t, execRecord r s = .next t := by
  obtain ⟨op, c, t, a, b, d⟩ := r
  cases op
  · exact ⟨_, execHalt_next c t a b d s⟩
  · exact ⟨_, execLoad_next c t a b d s⟩
  · exact ⟨_, execStore_next c t a b d s⟩
  all_goals exact ⟨_, arithmetic_next _ c t a b d s⟩

/-! ## The step -/

theorem mapNext_next {f : State → State} {o : Host.Outcome State Fault Refusal} (h : mapNext f o = .next t) :
    ∃ u, o = .next u ∧ t = f u := by
  cases o with
  | next u => exact ⟨u, rfl, by simpa [mapNext] using h.symm⟩
  | fault r => cases h
  | refused r => cases h

/-- A fetch that succeeds and decodes. -/
theorem State.fetchDecode_ok {r : Record} (h : s.fetchDecode = .ok (r, t)) :
    s.inRange (sval s.pc) = true ∧
      decodeRecord s.reservedBitFaults (Memory.read s.mem (sval s.pc).toNat) = .ok r ∧
      t = (s.logBus (.get .fetch (sval s.pc).toNat (Memory.read s.mem (sval s.pc).toNat))).observe
        ⟨sval s.pc, Memory.read s.mem (sval s.pc).toNat, r⟩ := by
  unfold State.fetchDecode at h
  cases hr : s.inRange (sval s.pc) with
  | false => simp [State.memGet, hr] at h
  | true =>
    rw [State.memGet_of_inRange hr] at h
    cases hd : decodeRecord s.reservedBitFaults (Memory.read s.mem (sval s.pc).toNat) with
    | error e => simp [hd] at h
    | ok r' =>
      simp only [hd, Except.ok.injEq, Prod.mk.injEq] at h
      obtain ⟨rfl, rfl⟩ := h
      exact ⟨rfl, rfl, rfl⟩

theorem State.fetchDecode_of_ok {r : Record} (hr : s.inRange (sval s.pc) = true)
    (hd : decodeRecord s.reservedBitFaults (Memory.read s.mem (sval s.pc).toNat) = .ok r) :
    s.fetchDecode = .ok (r, (s.logBus (.get .fetch (sval s.pc).toNat
      (Memory.read s.mem (sval s.pc).toNat))).observe ⟨sval s.pc, Memory.read s.mem (sval s.pc).toNat, r⟩) := by
  simp [State.fetchDecode, State.memGet_of_inRange hr, hd]

/-- A fetch that faults: the address is out of range, or the word does not decode. -/
theorem State.fetchDecode_error (h : s.fetchDecode = .error t) :
    (s.inRange (sval s.pc) = false ∧ t = s.raiseFault (.boundsError (sval s.pc) .fetch)) ∨
      (s.inRange (sval s.pc) = true ∧
        (∃ e, decodeRecord s.reservedBitFaults (Memory.read s.mem (sval s.pc).toNat) = .error e) ∧
        t = (s.logBus (.get .fetch (sval s.pc).toNat (Memory.read s.mem (sval s.pc).toNat))).raiseFault
          (.decodingError (sval s.pc) (Memory.read s.mem (sval s.pc).toNat))) := by
  unfold State.fetchDecode at h
  cases hr : s.inRange (sval s.pc) with
  | false => exact .inl ⟨rfl, by simpa [State.memGet, hr] using h.symm⟩
  | true =>
    rw [State.memGet_of_inRange hr] at h
    cases hd : decodeRecord s.reservedBitFaults (Memory.read s.mem (sval s.pc).toNat) with
    | error e => exact .inr ⟨rfl, ⟨e, rfl⟩, by simpa [hd] using h.symm⟩
    | ok r => simp [hd] at h

/-- What an engine step can do: fault in fetch or decode, or run the decoded record and move ENGINE. -/
theorem instructionStep_next (h : instructionStep s = .next t) :
    s.fetchDecode = .error t ∨
      ∃ r u v, s.fetchDecode = .ok (r, u) ∧ execRecord r u = .next v ∧ t = v.afterStep := by
  unfold instructionStep at h
  cases hf : s.fetchDecode with
  | error u =>
    rw [hf] at h
    exact .inl (by cases h; rfl)
  | ok p =>
    obtain ⟨r, u⟩ := p
    rw [hf] at h
    obtain ⟨v, hv, ht⟩ := mapNext_next h
    exact .inr ⟨r, u, v, rfl, by rw [← exec_toInstr]; exact hv, ht⟩

/-- What a turn can do: an event of the host, a turn with the engine stopped, or an engine step. -/
theorem step_next (h : step s = .next t) :
    (∃ e rest, s.host = some e :: rest ∧ t = (s.setHost rest).hostEvent e) ∨
      (∃ rest, s.host = none :: rest ∧ s.engine ≠ .running ∧ t = s.setHost rest) ∨
      (s.engine = .running ∧ (s.host = [] ∨ s.host.head? = some none) ∧
        instructionStep (s.setHost s.host.tail) = .next t) := by
  unfold step at h
  match hh : s.host with
  | some e :: rest =>
    rw [hh] at h
    exact .inl ⟨e, rest, rfl, by cases h; rfl⟩
  | none :: rest =>
    rw [hh] at h
    cases he : s.engine <;> simp only [he, Engine.stopped] at h
    case running => exact .inr (.inr ⟨rfl, .inr rfl, h⟩)
    all_goals exact .inr (.inl ⟨rest, rfl, by simp, by cases h; rfl⟩)
  | [] =>
    rw [hh] at h
    cases he : s.engine <;> simp only [he, Engine.stopped] at h
    case running =>
      refine .inr (.inr ⟨rfl, .inl rfl, ?_⟩)
      have : s.setHost ([] : List (Option HostEvent)).tail = s := by
        cases s; simp_all [State.setHost]
      rw [this]; exact h
    all_goals cases h

end Sys2Proof.Machine
end

