-- ==== Sys2Proof/Machine/Image.lean ====
section
/-! DEFINITION. A program image as bytes outside the machine (spec/20_memory.md R56, spec/92_eei_decisions.md D15). The
byte order is an argument, as spec/00_scope.md R8 asks, and nothing of the core reads it. -/

namespace Sys2Proof.Machine

/-- `IMAGE_BYTE_ORDER` (R8): which byte of a word is stored at each of its four places, byte 0 being the least significant
one. Every order is a value of it. -/
abbrev ByteOrder := Equiv.Perm (Fin 4)

/-- The least significant byte first. -/
def ByteOrder.littleEndian : ByteOrder := Equiv.refl _

/-- The most significant byte first. -/
def ByteOrder.bigEndian : ByteOrder := Fin.revPerm

/-- Byte `j` of a word, 0 the least significant (R9, R56). -/
def wordByte (w : Word) (j : Fin 4) : Byte := w.extractLsb' (8 * j.val) 8

/-- The four bytes of a word, as they are stored. -/
def wordToBytes (order : ByteOrder) (w : Word) : List Byte :=
  [wordByte w (order 0), wordByte w (order 1), wordByte w (order 2), wordByte w (order 3)]

/-- The word of four stored bytes. -/
def wordOfBytes (order : ByteOrder) (b : Vector Byte 4) : Word :=
  b.get (order.symm 3) ++ b.get (order.symm 2) ++ b.get (order.symm 1) ++ b.get (order.symm 0)

/-- An image serialised: its words in order, four bytes each and nothing else. The order of the bytes is the argument; that
there is nothing else is DESIGN CHOICE (log entry 22), since the spec gives no file format (D15). -/
def imageToBytes (order : ByteOrder) (image : List Word) : List Byte := image.flatMap (wordToBytes order)

/-- The image of serialised bytes; bytes that do not make up whole words are no image. -/
def imageOfBytes (order : ByteOrder) : List Byte → Option (List Word)
  | [] => some []
  | a :: b :: c :: d :: rest => (imageOfBytes order rest).map (fun ws => wordOfBytes order #v[a, b, c, d] :: ws)
  | [_] => none
  | [_, _] => none
  | [_, _, _] => none

/-- Boot (R324) from an image stored as bytes. -/
def State.bootFromBytes (order : ByteOrder) (memSize : Nat) (bytes : List Byte) (start : Int) (singleStep : Bool) :
    Option State :=
  (imageOfBytes order bytes).map (fun image => State.boot memSize image start singleStep)

end Sys2Proof.Machine

namespace Sys2Proof.Asm

/-- The bytes of an assembly's image; only `ok` has one (R268). -/
def AsmResult.imageBytes (order : Machine.ByteOrder) : AsmResult → Option (List Byte)
  | .ok _ image => some (Machine.imageToBytes order image)
  | .failed _ => none
  | .aborted _ => none

end Sys2Proof.Asm
end

