-- ==== Sys2Proof/Laws/Image.lean ====
section
/-! SUPPORT. Serialising an image loses nothing, whatever the byte order, so the byte order reaches no state. -/

namespace Sys2Proof.Machine

theorem get_four (f : Fin 4 → Byte) (k : Fin 4) : (#v[f 0, f 1, f 2, f 3] : Vector Byte 4).get k = f k := by
  fin_cases k <;> rfl

theorem word_of_bytes (w : Word) : wordByte w 3 ++ wordByte w 2 ++ wordByte w 1 ++ wordByte w 0 = w := by
  apply BitVec.eq_of_getLsbD_eq
  intro k hk
  simp only [wordByte, BitVec.getLsbD_append, BitVec.getLsbD_extractLsb']
  interval_cases k <;> rfl

theorem wordOfBytes_wordToBytes (o : ByteOrder) (w : Word) :
    wordOfBytes o #v[wordByte w (o 0), wordByte w (o 1), wordByte w (o 2), wordByte w (o 3)] = w := by
  unfold wordOfBytes
  simp only [get_four (fun k => wordByte w (o k)), Equiv.apply_symm_apply]
  exact word_of_bytes w

/-- What was serialised is read back. -/
theorem imageOfBytes_imageToBytes (o : ByteOrder) (image : List Word) :
    imageOfBytes o (imageToBytes o image) = some image := by
  induction image with
  | nil => rfl
  | cons w ws ih =>
    have e : imageToBytes o (w :: ws) =
        wordByte w (o 0) :: wordByte w (o 1) :: wordByte w (o 2) :: wordByte w (o 3) :: imageToBytes o ws := rfl
    rw [e, imageOfBytes, ih, wordOfBytes_wordToBytes]
    rfl

/-- Boot from the bytes of an image is boot from the image: no state depends on the byte order (R56). -/
theorem State.bootFromBytes_imageToBytes (o : ByteOrder) (size : Nat) (image : List Word) (start : Int) (ss : Bool) :
    State.bootFromBytes o size (imageToBytes o image) start ss = some (State.boot size image start ss) := by
  unfold State.bootFromBytes
  rw [imageOfBytes_imageToBytes]
  rfl

end Sys2Proof.Machine
end

