-- ==== Sys2Proof/Laws/PerInstr.lean ====
section
/-! SUPPORT. A statement about every instruction as syntax: bit 31 of its word is 0 (R89, R116), unless it is a DATA
word, whose word is the literal itself (R250). -/

namespace Sys2Proof

theorem packFields_bit31 (op c t a b d : Int) : (packFields op c t a b d).getLsbD 31 = false := by
  unfold packFields
  iterate 6 rw [getLsbD_insert _ _ _ _ _ (by decide), if_neg (by decide)]
  rfl

namespace Laws.EncodedTopBit

/-- The word of an instruction has bit 31 clear; a DATA instruction's word is its own literal. -/
def Statement (i : Instr) : Prop :=
  match i.record with
  | some r => encode i = r.encode ∧ (encode i).getLsbD 31 = false
  | none => ∃ w, i = .data w ∧ encode i = w

theorem halt (c : Flags) (t a b : RegIdx) (d : Int) : Statement (.halt c t a b d) := ⟨rfl, packFields_bit31 _ _ _ _ _ _⟩
theorem load (c : Flags) (t a b : RegIdx) (d : Int) : Statement (.load c t a b d) := ⟨rfl, packFields_bit31 _ _ _ _ _ _⟩
theorem store (c : Flags) (t a b : RegIdx) (d : Int) : Statement (.store c t a b d) :=
  ⟨rfl, packFields_bit31 _ _ _ _ _ _⟩
theorem add (c : Flags) (t a b : RegIdx) (d : Int) : Statement (.add c t a b d) := ⟨rfl, packFields_bit31 _ _ _ _ _ _⟩
theorem sub (c : Flags) (t a b : RegIdx) (d : Int) : Statement (.sub c t a b d) := ⟨rfl, packFields_bit31 _ _ _ _ _ _⟩
theorem mul (c : Flags) (t a b : RegIdx) (d : Int) : Statement (.mul c t a b d) := ⟨rfl, packFields_bit31 _ _ _ _ _ _⟩
theorem div (c : Flags) (t a b : RegIdx) (d : Int) : Statement (.div c t a b d) := ⟨rfl, packFields_bit31 _ _ _ _ _ _⟩
theorem jump (c : Flags) (d : Int) : Statement (.jump c d) := ⟨rfl, packFields_bit31 _ _ _ _ _ _⟩
theorem data (w : Word) : Statement (.data w) := ⟨w, rfl, rfl⟩

end Laws.EncodedTopBit

end Sys2Proof
end

