-- ==== Sys2Proof/Machine/Run.lean ====
section
/-! DEFINITION. The end of a run and its final state (spec/42_cpu_engine.md R184). The step does not read these. -/

namespace Sys2Proof.Machine

/-- How a run ends (R184): in HALTED_STOP, in FAULTED with the fault in FAULT, or in IDLE after a host abort, of which no
end is claimed. -/
inductive RunEnd where
  | normal
  | abnormal (fault : FaultStatus)
  | aborted
  deriving DecidableEq, Repr

/-- The final state of a run (R184): the register file, FLAGS, HALTED, FAULT and memory. -/
structure FinalState where
  regs : RegFile
  flags : Flags
  halted : Bool
  fault : FaultStatus
  mem : Memory
  deriving DecidableEq, Repr

/-- The part of a state that R184 calls the final state of a run that ends there. -/
def State.final (s : State) : FinalState where
  regs := s.regs
  flags := s.flags
  halted := s.halted
  fault := s.fault
  mem := s.mem

/-- A run is under way: it has been started and has not ended (R179). -/
def State.inRun (s : State) : Bool :=
  match s.engine with
  | .running => true
  | .paused => true
  | .idle => false
  | .haltedStop => false
  | .faulted => false

/-- How a run ends with the turn that goes from `s` to `t`, if one ends with it (R184). IDLE is an end only after a host
abort: a reset that breaks a run off is none. A `run` called with HALTED true is started and ended by its own turn (R179;
log entry 25). -/
def State.turnEnd (s t : State) : Option RunEnd :=
  match s.engine, t.engine with
  | .running, .haltedStop => some .normal
  | .paused, .haltedStop => some .normal
  | .idle, .haltedStop => some .normal
  | .running, .faulted => some (.abnormal t.fault)
  | .paused, .faulted => some (.abnormal t.fault)
  | .running, .idle => if s.host.head? = some (some .abort) then some .aborted else none
  | .paused, .idle => if s.host.head? = some (some .abort) then some .aborted else none
  | _, _ => none

/-- The first end of a run in the next `n` turns, with the final state there (R184): `none` when no run ends in them, as in
every number of turns of a run that never ends, and when a reset breaks the run off first (log entry 25). -/
def State.runEnd : Nat → State → Option (RunEnd × FinalState)
  | 0, _ => none
  | n + 1, s =>
    match step s with
    | .next t =>
      match s.turnEnd t with
      | some e => some (e, t.final)
      | none => if s.inRun && t.engine = .idle then none else State.runEnd n t
    | .fault _ => none
    | .refused _ => none

end Sys2Proof.Machine
end

