-- ==== Sys2Proof/Laws/Run.lean ====
section
/-! SUPPORT. What ends a run, and that the end found is the first. -/

namespace Sys2Proof.Machine

variable {s t : State}

/-- A run is aborted exactly by a turn of the host's abort that takes a run under way to IDLE. -/
theorem State.turnEnd_aborted :
    s.turnEnd t = some .aborted ↔ s.inRun = true ∧ t.engine = .idle ∧ s.host.head? = some (some .abort) := by
  unfold State.turnEnd State.inRun
  cases s.engine <;> cases t.engine <;> simp

/-- A run ends normally exactly where HALTED_STOP is entered. -/
theorem State.turnEnd_normal :
    s.turnEnd t = some .normal ↔ (s.inRun = true ∨ s.engine = .idle) ∧ t.engine = .haltedStop := by
  unfold State.turnEnd State.inRun
  cases s.engine <;> cases t.engine <;> simp

/-- A run ends abnormally exactly where a run under way enters FAULTED, with the fault that is then in FAULT. -/
theorem State.turnEnd_abnormal {f : FaultStatus} :
    s.turnEnd t = some (.abnormal f) ↔ s.inRun = true ∧ t.engine = .faulted ∧ t.fault = f := by
  unfold State.turnEnd State.inRun
  cases s.engine <;> cases t.engine <;> simp

/-- More turns find the same end: it is the first. -/
theorem State.runEnd_add {n : Nat} {x : RunEnd × FinalState} (h : State.runEnd n s = some x) (k : Nat) :
    State.runEnd (n + k) s = some x := by
  induction n generalizing s with
  | zero => cases h
  | succ n ih =>
    rw [Nat.succ_add]
    unfold State.runEnd at h ⊢
    cases hs : step s with
    | next u =>
      rw [hs] at h
      cases he : s.turnEnd u with
      | some e => simpa [he] using h
      | none =>
        simp only [he] at h ⊢
        split at h
        · cases h
        · next hc => rw [if_neg hc]; exact ih h
    | fault r => rw [hs] at h; cases h
    | refused r => rw [hs] at h; cases h

/-- In the reset state, before any `run`, no run ends. -/
theorem State.runEnd_reset (n : Nat) : State.runEnd n State.reset = none := by
  cases n <;> rfl

end Sys2Proof.Machine
end

