-- ==== Sys2Proof/Laws/Step.lean ====
section
/-! SUPPORT. What an executed record and a turn of the machine can do, case by case, in the terms of Safety.lean. -/

namespace Sys2Proof.Machine

variable {s t v : State} {r : Record}

/-! ## The program counter and the address -/

theorem State.pc_incPc_add_one (s : State) : s.incPc.pc = s.pc + 1#32 := by rw [s.pc_incPc, wrap32_uval_add_one]

/-- A register read after the increment is what STORE stores. -/
theorem State.incPc_readReg (s : State) (rt : RegIdx) : s.incPc.readReg rt = s.storedValue rt := by
  unfold State.storedValue
  split
  · next h => subst h; exact s.pc_incPc_add_one
  · next h => exact s.readReg_incPc h

/-- The ALU result of the opcodes that add: both registers and the offset, modulo 2^32. -/
theorem State.result_of_adds (s : State) {op : Opcode} (rs1 rs2 : RegIdx) (d : Int)
    (h : op ≠ .sub ∧ op ≠ .mul ∧ op ≠ .div) :
    s.result op rs1 rs2 d = wrap32 ((s.readReg rs1).toInt + (s.readReg rs2).toInt + d) := by
  have e : s.result op rs1 rs2 d = wrap32 (sval (s.readReg rs1) + sval (wrap32 (sval (s.readReg rs2) + d))) := by
    cases op <;> first | rfl | simp at h
  rw [e, wrap32_add_sval, Int.add_assoc]

/-- The effective address of LOAD and STORE in the terms of R208. -/
theorem State.effectiveAddress_eq (s : State) (op : Opcode) (r : Record) (h : op ≠ .sub ∧ op ≠ .mul ∧ op ≠ .div) :
    s.effectiveAddress op r.rs1 r.rs2 r.offset = s.addressOf r := by
  unfold State.effectiveAddress
  rw [s.result_of_adds _ _ _ h]
  rfl

theorem State.pcInRange_iff (s : State) : s.pcInRange ↔ s.inRange (sval s.pc) = true := by
  rw [State.inRange_iff]
  rfl

/-! ## A record -/

theorem execRecord_skip (h : predicateHolds s.flags r.cond = false) : execRecord r s = .next s.incPc := by
  obtain ⟨op, c, t, a, b, d⟩ := r
  cases op <;>
    simp only [execRecord, execHalt, execLoad, execStore, execAdd, execSub, execMul, execDiv, arithmetic] <;>
    exact gate_skips h

/-- Everything an executed record can do. -/
theorem execRecord_cases (h : execRecord r s = .next v) :
    (predicateHolds s.flags r.cond = false ∧ v = s.incPc) ∨
      (predicateHolds s.flags r.cond = true ∧
        ((r.opcode = .halt ∧ v = (s.issue .halt r.rs1 r.rs2 r.offset).setHalted) ∨
          (r.opcode ∈ [Opcode.add, .sub, .mul, .div] ∧
            v = (s.issue r.opcode r.rs1 r.rs2 r.offset).writeReg r.rt (s.result r.opcode r.rs1 r.rs2 r.offset)) ∨
          (r.opcode = .load ∧ s.inRange (s.addressOf r) = true ∧
            v = ((s.issue .load r.rs1 r.rs2 r.offset).logBus
              (.get .load (s.addressOf r).toNat (Memory.read s.mem (s.addressOf r).toNat))).writeReg r.rt
                (Memory.read s.mem (s.addressOf r).toNat)) ∨
          (r.opcode = .load ∧ s.inRange (s.addressOf r) = false ∧
            v = (s.issue .load r.rs1 r.rs2 r.offset).raiseFault (.boundsError (s.addressOf r) .load)) ∨
          (r.opcode = .store ∧ s.inRange (s.addressOf r) = true ∧
            v = ((s.issue .store r.rs1 r.rs2 r.offset).setWord (s.addressOf r).toNat (s.storedValue r.rt)).logBus
              (.put (s.addressOf r).toNat (s.storedValue r.rt))) ∨
          (r.opcode = .store ∧ s.inRange (s.addressOf r) = false ∧
            v = (s.issue .store r.rs1 r.rs2 r.offset).raiseFault (.boundsError (s.addressOf r) .store)))) := by
  obtain ⟨op, c, rt, a, b, d⟩ := r
  cases hp : predicateHolds s.flags c with
  | false =>
    rw [execRecord_skip (r := ⟨op, c, rt, a, b, d⟩) hp] at h
    cases h
    exact .inl ⟨rfl, rfl⟩
  | true =>
    refine .inr ⟨rfl, ?_⟩
    cases op
    · simp only [execRecord, execHalt_next, hp, if_true] at h
      cases h
      simp
    · simp only [execRecord, execLoad_next, hp, if_true] at h
      rw [s.effectiveAddress_eq .load ⟨.load, c, rt, a, b, d⟩ (by simp)] at h
      cases h
      cases hr : s.inRange (s.addressOf ⟨.load, c, rt, a, b, d⟩) <;> simp
    · simp only [execRecord, execStore_next, hp, if_true] at h
      rw [s.effectiveAddress_eq .store ⟨.store, c, rt, a, b, d⟩ (by simp), s.incPc_readReg] at h
      cases h
      cases hr : s.inRange (s.addressOf ⟨.store, c, rt, a, b, d⟩) <;> simp
    all_goals
      simp only [execRecord, execAdd, execSub, execMul, execDiv, arithmetic_next, hp, if_true] at h
      cases h
      simp

/-! ## The move of ENGINE and the host's events -/

section AfterStep
variable (v : State)

@[simp] theorem State.afterStep_regs : v.afterStep.regs = v.regs := by unfold State.afterStep; (repeat' split) <;> rfl
@[simp] theorem State.afterStep_flags : v.afterStep.flags = v.flags := by
  unfold State.afterStep; (repeat' split) <;> rfl
@[simp] theorem State.afterStep_halted : v.afterStep.halted = v.halted := by
  unfold State.afterStep; (repeat' split) <;> rfl
@[simp] theorem State.afterStep_fault : v.afterStep.fault = v.fault := by
  unfold State.afterStep; (repeat' split) <;> rfl
@[simp] theorem State.afterStep_singleStep : v.afterStep.singleStep = v.singleStep := by
  unfold State.afterStep; (repeat' split) <;> rfl
@[simp] theorem State.afterStep_mem : v.afterStep.mem = v.mem := by unfold State.afterStep; (repeat' split) <;> rfl
@[simp] theorem State.afterStep_memSize : v.afterStep.memSize = v.memSize := by
  unfold State.afterStep; (repeat' split) <;> rfl
@[simp] theorem State.afterStep_reservedBitFaults : v.afterStep.reservedBitFaults = v.reservedBitFaults := by
  unfold State.afterStep; (repeat' split) <;> rfl
@[simp] theorem State.afterStep_observed : v.afterStep.observed = v.observed := by
  unfold State.afterStep; (repeat' split) <;> rfl
@[simp] theorem State.afterStep_bus : v.afterStep.bus = v.bus := by unfold State.afterStep; (repeat' split) <;> rfl
@[simp] theorem State.afterStep_host : v.afterStep.host = v.host := by unfold State.afterStep; (repeat' split) <;> rfl

end AfterStep

theorem State.hostEvent_fault (s : State) (e : HostEvent) : (s.hostEvent e).fault = s.fault ∨ e = .reset := by
  cases e <;> simp [State.hostEvent] <;> (try split) <;> simp [State.startRun]

theorem State.hostEvent_halted (s : State) (e : HostEvent) :
    (s.hostEvent e).halted = s.halted ∨ (e = .reset ∧ (s.hostEvent e).halted = false) := by
  cases e <;> simp [State.hostEvent, State.coreReset, State.reset] <;> (try split) <;> simp [State.startRun]

/-- No event of the host touches memory, its size, the decoder's parameter or the two records. -/
theorem State.hostEvent_surroundings (s : State) (e : HostEvent) :
    (s.hostEvent e).mem = s.mem ∧ (s.hostEvent e).memSize = s.memSize ∧
      (s.hostEvent e).reservedBitFaults = s.reservedBitFaults ∧ (s.hostEvent e).observed = s.observed ∧
      (s.hostEvent e).bus = s.bus ∧ (s.hostEvent e).host = s.host := by
  cases e <;> simp [State.hostEvent, State.coreReset] <;> (try split) <;> simp [State.startRun]

/-! ## A turn -/

theorem not_engineTurn_of_event {e : HostEvent} {rest : List (Option HostEvent)} (h : s.host = some e :: rest) :
    ¬ s.engineTurn := by
  rintro ⟨_, h' | h'⟩ <;> rw [h] at h' <;> simp at h'

/-- In an engine turn the step is an engine step, the host's turn used up. -/
theorem step_of_engineTurn (h : s.engineTurn) : step s = instructionStep (s.setHost s.host.tail) := by
  obtain ⟨he, hh⟩ := h
  unfold step
  match hs : s.host with
  | [] =>
    have e : s.setHost ([] : List (Option HostEvent)).tail = s := by cases s; simp_all [State.setHost]
    simp only [he, Engine.stopped, e]
  | none :: rest => simp only [he, Engine.stopped, List.tail_cons]
  | some e :: rest => rw [hs] at hh; simp at hh

/-- Everything a turn can do. -/
theorem step_cases (h : step s = .next t) :
    (∃ e rest, s.host = some e :: rest ∧ t = (s.setHost rest).hostEvent e) ∨
      (∃ rest, s.host = none :: rest ∧ s.engine ≠ .running ∧ t = s.setHost rest) ∨
      (s.engineTurn ∧ ¬ s.pcInRange ∧
        t = (s.setHost s.host.tail).raiseFault (.boundsError (sval s.pc) .fetch)) ∨
      (s.engineTurn ∧ s.pcInRange ∧ (∃ e, decodeRecord s.reservedBitFaults s.fetchWord = .error e) ∧
        t = ((s.setHost s.host.tail).logBus (.get .fetch (sval s.pc).toNat s.fetchWord)).raiseFault
          (.decodingError (sval s.pc) s.fetchWord)) ∨
      (s.engineTurn ∧ s.pcInRange ∧
        ∃ r v, decodeRecord s.reservedBitFaults s.fetchWord = .ok r ∧ execRecord r (s.fetched r) = .next v ∧
          t = v.afterStep) := by
  rcases step_next h with h' | h' | ⟨he, hh, hi⟩
  · exact .inl h'
  · exact .inr (.inl h')
  · have ht : s.engineTurn := ⟨he, hh⟩
    refine .inr (.inr ?_)
    rcases instructionStep_next hi with hf | ⟨r, u, v, hf, hv, rfl⟩
    · rcases State.fetchDecode_error hf with ⟨hr, rfl⟩ | ⟨hr, hd, rfl⟩
      · refine .inl ⟨ht, fun hc => ?_, rfl⟩
        have := s.pcInRange_iff.mp hc
        change s.inRange (sval s.pc) = false at hr
        rw [hr] at this
        cases this
      · exact .inr (.inl ⟨ht, s.pcInRange_iff.mpr hr, hd, rfl⟩)
    · obtain ⟨hr, hd, rfl⟩ := State.fetchDecode_ok hf
      exact .inr (.inr ⟨ht, s.pcInRange_iff.mpr hr, r, v, hd, hv, rfl⟩)

/-! ## Memory -/

/-- A loaded image: its words from the load address on, every other word as before. -/
theorem Memory.read_load (m : Memory) (a : Nat) (ws : List Word) :
    (∀ k, ∀ h : k < ws.length, Memory.read (Memory.load m a ws) (a + k) = ws[k]) ∧
      ∀ b, (b < a ∨ a + ws.length ≤ b) → Memory.read (Memory.load m a ws) b = Memory.read m b := by
  induction ws generalizing m a with
  | nil => simp [Memory.load]
  | cons w ws ih =>
    obtain ⟨h1, h2⟩ := ih (Memory.write m a w) (a + 1)
    refine ⟨fun k hk => ?_, fun b hb => ?_⟩
    · cases k with
      | zero => rw [Memory.load, h2 _ (by omega)]; exact Memory.read_write_same _ _ _
      | succ k => rw [Memory.load, show a + (k + 1) = a + 1 + k by omega, h1 k (by simpa using hk)]; rfl
    · simp at hb
      rw [Memory.load, h2 b (by omega), Memory.read_write_other _ (by omega)]

/-- The cells of a loaded image lie in memory if the image does and the old ones did. -/
theorem Memory.load_inside {m : Memory} {n : Nat} (a : Nat) (ws : List Word) (h : ∀ c ∈ m, c.1 < n)
    (hn : a + ws.length ≤ n) : ∀ c ∈ Memory.load m a ws, c.1 < n := by
  induction ws generalizing m a with
  | nil => exact h
  | cons w ws ih =>
    simp only [List.length_cons] at hn
    refine ih (a + 1) (fun c hc => ?_) (by omega)
    rcases Memory.mem_write hc with rfl | hc
    · change a < n
      omega
    · exact h c hc

/-- A boot state whose image fits a memory of at least one word meets the invariant (log entry 27). -/
theorem State.boot_inv {size : Nat} {image : List Word} (hs : 1 ≤ size) (hi : image.length ≤ size) (start : Int)
    (ss : Bool) : (State.boot size image start ss).Inv where
  memCanonical := Memory.load_wf State.reset_mem_wf 0 image
  memInside := Memory.load_inside (n := size) 0 image (fun c hc => by cases hc) (by omega)
  memNonEmpty := hs
  flagsNonEmpty := by change Config.resetFlags ≠ 0#4; decide
  haltedStop := by change false = true ↔ Engine.idle = .haltedStop; decide
  faulted := by change FaultStatus.noFault ≠ .noFault ↔ Engine.idle = .faulted; decide

theorem replay_append {m m' : Memory} {b : List BusAccess} (b' : List BusAccess) (h : replay m b = some m') :
    replay m (b ++ b') = replay m' b' := by
  induction b generalizing m with
  | nil => simp [replay] at h; subst h; rfl
  | cons x b ih =>
    cases x with
    | get k a v =>
      simp only [replay, List.cons_append] at h ⊢
      split
      · next hx => rw [if_pos hx] at h; exact ih h
      · next hx => rw [if_neg hx] at h; cases h
    | put a v => exact ih h

end Sys2Proof.Machine
end

