-- ==== Sys2Proof/Laws/Text.lean ====
section
/-! SUPPORT. The assembler's texts: what is rendered is read back, piece by piece. -/

namespace Sys2Proof.Asm

/-! ## Numbers -/

theorem digitChar_isDigit {n : Nat} (h : n < 10) : isDigit (digitChar n) = true := by
  revert n
  decide

theorem digitValue_digitChar {n : Nat} (h : n < 10) : digitValue (digitChar n) = n := by
  revert n
  decide

theorem readDigits_append (base acc : Nat) (t u : Text) :
    readDigits base acc (t ++ u) = readDigits base (readDigits base acc t) u := by
  induction t generalizing acc with
  | nil => rfl
  | cons c t ih => exact ih _

theorem natDigits_isDigit (fuel n : Nat) : ∀ c ∈ natDigits fuel n, isDigit c = true := by
  induction fuel generalizing n with
  | zero =>
    intro c hc
    rw [natDigits, List.mem_singleton] at hc
    exact hc ▸ digitChar_isDigit (Nat.mod_lt _ (by omega))
  | succ fuel ih =>
    intro c hc
    rw [natDigits] at hc
    split at hc
    · next h => rw [List.mem_singleton] at hc; exact hc ▸ digitChar_isDigit h
    · rcases List.mem_append.mp hc with hc | hc
      · exact ih _ c hc
      · rw [List.mem_singleton] at hc
        exact hc ▸ digitChar_isDigit (Nat.mod_lt _ (by omega))

theorem natDigits_ne_nil (fuel n : Nat) : natDigits fuel n ≠ [] := by
  cases fuel with
  | zero => simp [natDigits]
  | succ fuel => rw [natDigits]; split <;> simp

theorem readDigits_natDigits {fuel n : Nat} (h : n ≤ fuel) : readDigits 10 0 (natDigits fuel n) = n := by
  induction fuel generalizing n with
  | zero =>
    obtain rfl : n = 0 := by omega
    rfl
  | succ fuel ih =>
    rw [natDigits]
    split
    · next hn => simp [readDigits, digitValue_digitChar hn]
    · next hn =>
      rw [readDigits_append, ih (by omega)]
      simp only [readDigits, digitValue_digitChar (Nat.mod_lt n (by omega : 0 < 10))]
      omega

theorem natText_isDigit (n : Nat) : ∀ c ∈ natText n, isDigit c = true := natDigits_isDigit n n

theorem readDigits_natText (n : Nat) : readDigits 10 0 (natText n) = n := readDigits_natDigits (Nat.le_refl n)

/-! ## Scanning -/

/-- A scan reads a token to its end when the character after it, if any, cannot belong to it. -/
theorem scan_append {start rest : Char → Bool} {c : Char} {t u : Text} (hc : start c = true)
    (ht : ∀ x ∈ t, rest x = true) (hu : ∀ x, u.head? = some x → rest x = false) :
    scan start rest (c :: t ++ u) = some (c :: t, u) := by
  have htake : (t ++ u).takeWhile rest = t := by
    induction t with
    | nil =>
      cases u with
      | nil => rfl
      | cons x u => simp [hu x rfl]
    | cons y t ih =>
      have hy : rest y = true := ht y (by simp)
      simpa [hy] using ih (fun x hx => ht x (by simp [hx]))
  have hdrop : (t ++ u).dropWhile rest = u := by
    induction t with
    | nil =>
      cases u with
      | nil => rfl
      | cons x u => simp [hu x rfl]
    | cons y t ih =>
      have hy : rest y = true := ht y (by simp)
      have := ih (fun x hx => ht x (by simp [hx])) (by simpa [hy] using htake)
      simpa [hy] using this
  simp [scan, hc, htake, hdrop]

/-- A rendered number is scanned back. -/
theorem scanDigits_natText (n : Nat) {u : Text} (hu : ∀ x, u.head? = some x → isDigit x = false) :
    scanDigits (natText n ++ u) = some (natText n, u) := by
  have hd := natText_isDigit n
  cases h : natText n with
  | nil => exact absurd h (natDigits_ne_nil n n)
  | cons c t =>
    rw [h] at hd
    exact scan_append (hd c (by simp)) (fun x hx => hd x (by simp [hx])) hu

/-- A rendered integer is scanned back as an OFFSET. -/
theorem scanOffset_intText (i : Int) {u : Text} (hu : ∀ x, u.head? = some x → isDigit x = false) :
    scanOffset (intText i ++ u) = some (i, u) := by
  unfold intText
  split
  · next h =>
    simp only [List.cons_append, scanOffset, scanDigits_natText _ hu, Option.map_some, readDigits_natText]
    congr 2
    omega
  · next h =>
    have hne : ∀ t, natText i.natAbs ++ u ≠ '-' :: t := by
      intro t ht
      cases hn : natText i.natAbs with
      | nil => exact absurd hn (natDigits_ne_nil _ _)
      | cons c t' =>
        rw [hn] at ht
        have hc := natText_isDigit i.natAbs c (by simp [hn])
        have : c = '-' := by simpa using congrArg List.head? ht
        rw [this] at hc
        revert hc
        decide
    have : scanOffset (natText i.natAbs ++ u) =
        (scanDigits (natText i.natAbs ++ u)).map (fun p => ((readDigits 10 0 p.1 : Int), p.2)) := by
      unfold scanOffset
      split
      · next t ht => exact absurd ht (hne t)
      · rfl
    rw [this, scanDigits_natText _ hu]
    simp only [Option.map_some, readDigits_natText]
    congr 2
    omega

/-! ## Names -/

theorem lookupOpcode_opcodeName (o : Opcode) : lookupOpcode (opcodeName o) = some o := by
  cases o <;> decide

theorem lookupRegister_regName (i : RegIdx) : lookupRegister (regName i) = some i := by
  revert i
  decide

theorem lookupPredicate_condLetters (f : Flags) (h : f ≠ Flag.always) : lookupPredicate (condLetters f) = some f := by
  revert f
  decide

theorem regName_shape (i : RegIdx) :
    ∃ t : Text, regName i = 'r' :: t ∧ ∀ x ∈ t, isRegChar x = true :=
  ⟨natText i.val, rfl, fun x hx => by simp [isRegChar, natText_isDigit i.val x hx]⟩

/-- A rendered register name is scanned back. -/
theorem scanReg_regName (i : RegIdx) {u : Text} (hu : ∀ x, u.head? = some x → isRegChar x = false) :
    scanReg (regName i ++ u) = some (regName i, u) := by
  obtain ⟨t, h, ht⟩ := regName_shape i
  rw [h]
  exact scan_append (by decide) ht hu

/-! ## The error budget -/

/-- A report that does not abort keeps the number of errors within the limit; one that aborts has passed it by one. -/
theorem report_length {limit n : Nat} {errors : List Report} {e : AsmError} (h : errors.length ≤ limit) :
    (∀ es, report limit errors n e = .ok es → es.length = errors.length + 1 ∧ es.length ≤ limit) ∧
      ∀ es, report limit errors n e = .error es → es.length = limit + 1 := by
  unfold report
  refine ⟨fun es he => ?_, fun es he => ?_⟩ <;> split at he
  · cases he
  · cases he; simp; omega
  · cases he; simp; omega
  · cases he

/-! ## The symbol table -/

theorem SymbolTable.find_append_of_some {t : SymbolTable} {l : Text} {a : Nat} (h : t.find l = some a)
    (u : SymbolTable) : SymbolTable.find (t ++ u) l = some a := by
  induction t with
  | nil => cases h
  | cons p t ih =>
    obtain ⟨x, b⟩ := p
    by_cases hx : x = l
    · simpa [SymbolTable.find, hx] using h
    · simp only [SymbolTable.find, hx, if_false, List.cons_append] at h ⊢
      exact ih h

end Sys2Proof.Asm
end

