-- ==== Sys2Proof/Tests/Slice0.lean ====
section
/-! SUPPORT. Small tests, their expected results from spec/95_test_vectors.md (the vector's id is in each name or
comment), the smoke test of WellFormed, and for every obligation with hypotheses a witness that meets them. -/

open Sys2Proof Sys2Proof.Machine Sys2Proof.Asm

namespace Sys2Proof.Tests

/-- A running machine of 32 words with these registers and memory words (the conventions of spec/95). -/
def running (pc : Word) (flags : Flags) (regs : List (RegIdx × Word)) (mem : List (Nat × Word)) : State :=
  { State.reset with
    regs := RegFile.write (regs.foldl (fun r p => RegFile.write r p.1 p.2) State.reset.regs) 15 pc
    flags := flags
    engine := .running
    memSize := 32
    mem := mem.foldl (fun m p => Memory.write m p.1 p.2) [] }

/-- A machine whose host gives one event, with the engine in a control state. -/
def hosted (e : Engine) (x : Option HostEvent) : State := { running 1 0b0100 [(1, 1)] [] with engine := e, host := [x] }

/-- The state after one step, if there is one. -/
def after (s : State) : Option State :=
  match step s with
  | .next t => some t
  | _ => none

/-- A register, the PC and FLAGS after one step. -/
def see (s : State) (i : RegIdx) : Option (Word × Word × Flags) := (after s).map (fun t => (t.readReg i, t.pc, t.flags))

/-! ## WellFormed: an offset the field cannot hold is refused (R83, R114) -/

theorem smoke_halt : (Instr.halt 15 0 0 0 512).wf = false ∧ (Instr.halt 15 0 0 0 (-513)).wf = false := by decide
theorem smoke_load : (Instr.load 15 1 0 15 512).wf = false ∧ (Instr.load 15 1 0 15 (-513)).wf = false := by decide
theorem smoke_store : (Instr.store 15 1 0 15 512).wf = false ∧ (Instr.store 15 1 0 15 (-513)).wf = false := by decide
theorem smoke_add : (Instr.add 15 1 2 3 512).wf = false ∧ (Instr.add 15 1 2 3 (-513)).wf = false := by decide
theorem smoke_sub : (Instr.sub 15 1 2 3 512).wf = false ∧ (Instr.sub 15 1 2 3 (-513)).wf = false := by decide
theorem smoke_mul : (Instr.mul 15 1 2 3 512).wf = false ∧ (Instr.mul 15 1 2 3 (-513)).wf = false := by decide
theorem smoke_div : (Instr.div 15 1 2 3 512).wf = false ∧ (Instr.div 15 1 2 3 (-513)).wf = false := by decide
theorem smoke_jump : (Instr.jump 15 512).wf = false ∧ (Instr.jump 15 (-513)).wf = false := by decide
theorem smoke_ends : (Instr.add 15 1 2 3 511).wf = true ∧ (Instr.jump 15 (-512)).wf = true := by decide
theorem smoke_record : (Record.mk .add 15 1 2 3 512).wf = false ∧ (Record.mk .add 15 1 2 3 (-513)).wf = false := by
  decide

/-! ## Decoding: words written out by R81, `0 op cond rt rs1 rs2 offset` -/

theorem test_decode_halt : decode 0b00000001111000000000000000000000#32 = .ok (.halt 7 8 0 0 0) := by decide
theorem test_decode_load : decode 0b00000111110001000011110000000101#32 = .ok (.load 15 1 0 15 5) := by decide
theorem test_decode_store : decode 0b00001000011110110111001000000000#32 = .ok (.store 1 14 13 12 (-512)) := by decide
theorem test_decode_add : decode 0b00001101100001001000111111111100#32 = .ok (.add 6 1 2 3 (-4)) := by decide
theorem test_decode_sub : decode 0b00010100111111000011110000000111#32 = .ok (.sub 3 15 0 15 7) := by decide
theorem test_decode_mul : decode 0b00011001100001000100010000000000#32 = .ok (.mul 6 1 1 1 0) := by decide
theorem test_decode_div : decode 0b00011110001111111111110111111111#32 = .ok (.div 8 15 15 15 511) := by decide

/-- The word of JUMP with displacement -1 (N1v): the ADD it stands for (R93, R260). -/
theorem test_decode_jump :
    encode (.jump 15 (-1)) = 0b00001111111111000011111111111111#32 ∧
      decode 0b00001111111111000011111111111111#32 = .ok (.add 15 15 0 15 (-1)) := by decide

/-- A DATA word of value 40 (P2): its bits read as an instruction are HALT/NEVER (R89, R93). -/
theorem test_decode_data :
    encode (.data 40#32) = 0b00000000000000000000000000101000#32 ∧
      decode 0b00000000000000000000000000101000#32 = .ok (.halt 0 0 0 0 40) := by decide

/-- W10, W13 to W16. -/
theorem test_decode_refusals :
    decode 0x8FC48C04#32 = .ok (.add 15 1 2 3 4) ∧ decodeWith true 0x8FC48C04#32 = .error .reservedBitSet ∧
      decode 0x10000000#32 = .error (.undefinedOpcode 4) ∧ decode 0x20000000#32 = .error (.undefinedOpcode 8) ∧
      decode 0x7FFFFFFF#32 = .error (.undefinedOpcode 31) := by decide

/-- X1, X3 to X8. -/
theorem test_bit_fields :
    extract 0x0FC48C04#32 26 30 = 3 ∧ extractSigned 0x0BC8C3FF#32 0 9 = -1 ∧ extractSigned 0x00000200#32 0 9 = -512 ∧
      insert 5 0xFFFFFFFF#32 4 7 = 0xFFFFFF5F#32 ∧ insert 0x1F5 0#32 4 7 = 0x50#32 ∧
      insert (-1) 0#32 0 9 = 0x3FF#32 ∧ insert 1024 0x3FF#32 0 9 = 0#32 := by decide

/-- W2 through the two fixed entry points: the table's word decodes and is what the step runs (I4's word). -/
theorem test_withFetchWord :
    decodeTableWord 32 0x07C43C05 = some (.load 15 1 0 15 5) ∧
      (after (State.reset.withFetchWord 32 0x0FC0002A)).map (fun t => (t.pc, t.flags)) = some (1#32, 0b0100#4) := by
  decide

/-! ## ALU (L1, L4, L6, L7, L8) -/

theorem test_alu :
    aluExecute .mul 0x80000000#32 0xFFFFFFFF#32 = (0x80000000#32, 0b0001#4) ∧
      aluExecute .add 0x80000000#32 0x80000000#32 = (0#32, 0b0010#4) ∧
      aluExecute .div 0x80000000#32 0xFFFFFFFF#32 = (0x80000000#32, 0b0001#4) ∧
      aluExecute .div 7#32 0#32 = (0#32, 0b1010#4) ∧
      aluExecute .sub 0x80000000#32 1#32 = (0x7FFFFFFF#32, 0b0100#4) := by decide

/-- Q2, Q4. -/
theorem test_predicate :
    predicateHolds 0b0010#4 0b0011#4 = true ∧ predicateHolds 0b0010#4 0b1000#4 = false ∧
      predicateHolds 0b1010#4 0b1000#4 = true ∧ predicateHolds 0b1010#4 0b0101#4 = false := by decide

/-! ## One step of each instruction (section 6) -/

theorem test_halt_I3 :
    (after (running 0 15 [(1, 2)] [(0, 0x03C043FB)])).map (fun t => (t.halted, t.pc, t.flags, t.engine)) =
      some (true, 1#32, 0b0001#4, .haltedStop) := by decide
theorem test_halt_I2 :
    (after (running 0 15 [] [])).map (fun t => (t.halted, t.pc, t.flags, t.engine)) =
      some (false, 1#32, 0b1111#4, .running) := by decide
theorem test_load_I4 : see (running 10 15 [] [(10, 0x07C43C05), (15, 42)]) 1 = some (42#32, 11#32, 0b0100#4) := by
  decide
theorem test_load_I5 : see (running 0 15 [(1, 20)] [(0, 0x07FC4000), (20, 7)]) 15 = some (7#32, 7#32, 0b0100#4) := by
  decide
theorem test_store_I10 :
    (after (running 4 15 [] [(4, 0x0BFC0009)])).map (fun t => (Memory.read t.mem 9, t.pc, t.flags)) =
      some (5#32, 5#32, 0b0100#4) := by decide
theorem test_store_I11 :
    (after (running 0 15 [(1, 5)] [(0, 0x0BC40064)])).map (fun t => (t.fault, t.fault.code, t.pc, t.flags)) =
      some (.boundsError 100 .store, 4, 1#32, 0b0100#4) := by decide
theorem test_add_I13 : see (running 0 15 [(1, 0x7FFFFFFF)] [(0, 0x0FC44001)]) 1 =
    some (0x80000000#32, 1#32, 0b0001#4) := by decide
theorem test_add_I15 : see (running 6 15 [] [(6, 0x0FC7FC00)]) 1 = some (12#32, 7#32, 0b0100#4) := by decide
theorem test_sub_I17 : see (running 0 15 [(2, 3), (3, 5)] [(0, 0x17C48C00)]) 1 =
    some (0xFFFFFFFE#32, 1#32, 0b0001#4) := by decide
theorem test_sub_I19 : see (running 0 15 [(1, 10), (2, 3)] [(0, 0x17C44801)]) 1 = some (6#32, 1#32, 0b0100#4) := by
  decide
theorem test_mul_I20 : see (running 0 15 [(2, 0xFFFFFFFC)] [(0, 0x1BC48003)]) 1 =
    some (0xFFFFFFF4#32, 1#32, 0b0001#4) := by decide
theorem test_mul_I21 : see (running 0 15 [(1, 0x10000)] [(0, 0x1BC44400)]) 1 = some (0#32, 1#32, 0b0010#4) := by decide
theorem test_div_I23 : see (running 0 15 [(2, 0xFFFFFFF9), (3, 2)] [(0, 0x1FC48C00)]) 1 =
    some (0xFFFFFFFD#32, 1#32, 0b0001#4) := by decide
theorem test_div_I25 : see (running 0 15 [(2, 9), (3, 0xFFFFFFFF)] [(0, 0x1FC48C01)]) 1 =
    some (0#32, 1#32, 0b1010#4) := by decide

/-- S8: JUMP at address 1 with displacement -1 goes to 0. -/
theorem test_jump_S8 : see (running 1 15 [] [(1, 0x0FFC3FFF)]) 15 = some (0#32, 0#32, 0b0010#4) := by decide

/-- I28: a DATA word that names no instruction. -/
theorem test_data_I28 :
    (after (running 0 15 [] [(0, 0x10000000)])).map (fun t => (t.fault, t.pc, t.flags, t.observed)) =
      some (.decodingError 0 0x10000000#32, 0#32, 0b1111#4, []) := by decide

/-! ## Faults, the predicate gate and the engine -/

theorem test_load_fault_I7 :
    (after (running 0 15 [] [(0, 0x07C403FF)])).map (fun t => (t.fault, t.readReg 1, t.flags, t.engine)) =
      some (.boundsError (-1) .load, 0#32, 0b0001#4, .faulted) := by decide
theorem test_skip_I26 : see (running 0 0b0100 [] [(0, 0x0C840005)]) 1 = some (0#32, 1#32, 0b0100#4) := by decide
theorem test_fetch_I32 :
    (after (running 0xFFFFFFFF 15 [] [])).map (fun t => (t.fault, t.fault.code)) =
      some (.boundsError (-1) .fetch, 2) := by decide

/-- E2: single-step mode pauses after the step, and the continue signal starts it again. -/
theorem test_pause_E2 :
    (after { running 0 15 [] [(0, 0x0FC40001)] with singleStep := true }).map (fun t => (t.engine, t.readReg 1)) =
      some (.paused, 1#32) ∧
      (after (hosted .paused (some .continueSignal))).map State.engine = some .running := by decide

/-- E3, E4, E5. -/
theorem test_host_events :
    (after (hosted .paused (some .abort))).map (fun t => (t.engine, t.readReg 1, t.pc)) = some (.idle, 1#32, 1#32) ∧
      (after (hosted .haltedStop (some (.run 0 false)))).map State.engine = some .haltedStop ∧
      (after (hosted .faulted (some .reset))).map (fun t => (t.engine, t.readReg 1, t.flags)) =
        some (.idle, 0#32, 0b1111#4) := by decide

/-- E6: `run(7)` with HALTED true sets the PC and stops at once. -/
theorem test_run_E6 :
    (after { hosted .idle (some (.run 7 false)) with halted := true }).map (fun t => (t.engine, t.pc, t.readReg 1)) =
      some (.haltedStop, 7#32, 1#32) := by decide

/-- S10: boot with the one-word program and run: the host's turn, then one step, which halts. -/
theorem test_boot_S10 :
    ((after (State.boot 1 [0x03C00000#32] 0 false)).bind after).map (fun t => (t.engine, t.pc, t.flags, t.observed)) =
      some (.haltedStop, 1#32, 0b0010#4, [⟨0, 0x03C00000#32, ⟨.halt, 15, 0, 0, 0, 0⟩⟩]) := by decide

/-- R54: the second word of an image longer than memory is not fetched (log entry 27). -/
theorem test_boot_long_image :
    (((after (State.boot 1 [0x0FC40001#32, 0x03C00000#32] 0 false)).bind after).bind after).map State.fault =
      some (.boundsError 1 .fetch) := by decide

/-! ## The end of a run (R184) -/

/-- S10: the run ends normally with its one step, the second turn, and in the state the vector gives. -/
theorem test_runEnd_halt :
    (State.runEnd 2 (State.boot 1 [0x03C00000#32] 0 false)).map (fun x => (x.1, x.2.halted, x.2.flags, x.2.fault)) =
        some (.normal, true, 0b0010#4, .noFault) ∧
      State.runEnd 1 (State.boot 1 [0x03C00000#32] 0 false) = none := by decide

/-- P8: the run ends abnormally with its second step. -/
theorem test_runEnd_fault :
    (State.runEnd 5 (State.boot 1 [0x0FC40001#32] 0 false)).map Prod.fst =
      some (.abnormal (.boundsError 1 .fetch)) := by decide

/-- E3: an abort ends the run; a reset of the same state does not, and neither does being IDLE. -/
theorem test_runEnd_abort :
    (State.runEnd 3 (hosted .paused (some .abort))).map Prod.fst = some .aborted ∧
      State.runEnd 3 (hosted .paused (some .reset)) = none ∧ State.runEnd 3 (hosted .idle none) = none := by decide

/-- E6: `run` with HALTED true enters HALTED_STOP at once. -/
theorem test_runEnd_E6 :
    (State.runEnd 1 { hosted .idle (some (.run 7 false)) with halted := true }).map Prod.fst = some .normal := by decide

/-! ## Images as bytes (R8, R56) -/

/-- The word of W2 in both common byte orders, by its hexadecimal digits. -/
theorem test_image_bytes :
    imageToBytes .bigEndian [0x07C43C05#32] = [0x07#8, 0xC4#8, 0x3C#8, 0x05#8] ∧
      imageToBytes .littleEndian [0x07C43C05#32] = [0x05#8, 0x3C#8, 0xC4#8, 0x07#8] ∧
      imageOfBytes .bigEndian [0x07#8, 0xC4#8, 0x3C#8, 0x05#8] = some [0x07C43C05#32] ∧
      imageOfBytes .bigEndian [0x07#8, 0xC4#8, 0x3C#8] = none := by decide

/-- Log entry 24: 2^32 is outside memory, its wrap is 0. -/
theorem test_run_wrapped_start :
    (after (hosted .idle (some (.run 4294967296 false)))).map (fun t => (t.engine, t.pc, t.fault)) =
      some (.running, 0#32, .noFault) := by decide

/-! ## The assembler (section 8) -/

/-- A3. -/
theorem test_full_A3 :
    parseLine "  loop:  ADD/ZP r1 , r2 ,r3 [ -4 ]  # c".toList =
      .ok (.full (some "loop".toList) ⟨.add, 6, 1, 2, 3, -4⟩ (some " c".toList)) := by decide
/-- A2, A4, A6, A10. -/
theorem test_errors :
    parseLine "HALT ALWAYS r0,r0,r0[0]".toList = .error .syntaxError ∧
      parseLine "ADD r1,r2,r3[512]".toList = .error (.rangeError 512) ∧
      parseLine "ADD r16,r2,r3[0]".toList = .error (.lookupError "r16".toList) ∧
      parseLine "SHL r1,r2,r3[0]".toList = .error (.lookupError "SHL".toList) := by decide
/-- A15, A16, A17. -/
theorem test_data_lines :
    parseLine "DATA 0xFFFFFFFF".toList = .ok (.data none 0xFFFFFFFF#32 none) ∧
      parseLine "DATA -2147483649".toList = .error (.rangeError (-2147483649)) ∧
      parseLine "DATA 0XFF".toList = .error .syntaxError := by decide
/-- A21. -/
theorem test_symbolic_A21 :
    parseLine "JUMP/NZ loop  # back".toList =
      .ok (.symbolic none .jump 3 (some "NZ".toList) none "loop".toList (some " back".toList)) := by decide
/-- A36. -/
theorem test_program_A36 :
    assemble 5 ["x:".toList, "y: # both".toList, "DATA 3".toList, "JUMP/Z y".toList] =
      .ok ["x:".toList, "y: # both".toList, "DATA 3".toList, "ADD/Z  r15,r0,r15[-1]".toList]
        [0x3#32, 0x0CBC3FFF#32] := by decide
/-- A30, A31. -/
theorem test_program_errors :
    assemble 5 ["a: DATA 1".toList, "a: DATA 2".toList, "LOAD r1,a".toList] =
        .failed [⟨2, .duplicateLabel "a".toList⟩] ∧
      assemble 5 ["JUMP nowhere".toList, "HALT r0,r0,r0[0]".toList] =
        .failed [⟨1, .unresolvedLabel "nowhere".toList⟩] := by decide
/-- A39, with limit 1: two bad lines abort. -/
theorem test_budget : assemble 1 ["bad line".toList, "bad line".toList, "DATA".toList] =
    .aborted [⟨1, .syntaxError⟩, ⟨2, .syntaxError⟩] := by decide

/-! ## Witnesses: for every obligation with hypotheses, states and operands that meet all of them -/

/-- A running machine with FLAGS = P, whose instruction at 10 is `w`. -/
def at10 (w : Word) : State := running 10 0b0100 [(1, 20), (2, 7)] [(10, w), (20, 9)]

theorem running_engineTurn (pc : Word) (f : Flags) (r : List (RegIdx × Word)) (m : List (Nat × Word)) :
    (running pc f r m).engineTurn := ⟨rfl, .inl rfl⟩

theorem witness_DecodeOfEncodeReturnsTheInstruction :
    (Instr.store 1 14 13 12 (-512)).isHardware = true ∧ (Instr.store 1 14 13 12 (-512)).wf = true ∧
      (Instr.div 8 15 15 15 511).isHardware = true ∧ (Instr.div 8 15 15 15 511).wf = true := by decide

theorem witness_JumpIsAddIntoPc : (Instr.jump 15 (-512)).wf = true ∧ (Instr.jump 0 511).wf = true := by decide

theorem witness_EncodeOfDecodeDropsOnlyBit31 :
    ((0x8FC48C04#32 : Word).extractLsb' 26 5).toNat ∈ [0, 1, 2, 3, 5, 6, 7] := by decide

theorem witness_BitFieldInsertExtractLaws :
    ((0 : Nat) ≤ 31 ∧ (31 : Nat) ≤ 31) ∧ ((4 : Nat) ≤ 7 ∧ (7 : Nat) ≤ 31 ∧ (3 : Nat) < 32 ∧ (3 : Nat) < 4) ∧
      ((4 : Nat) ≤ 7 ∧ (8 : Nat) < 32 ∧ (7 : Nat) < 8) := by decide

theorem witness_OnlySevenOpcodesDecode :
    ((0x1FC00000#32 : Word).extractLsb' 26 5).toNat ∈ [0, 1, 2, 3, 5, 6, 7] ∧
      ((0#32 : Word).extractLsb' 26 5).toNat ∈ [0, 1, 2, 3, 5, 6, 7] ∧
      ((0x10000000#32 : Word).extractLsb' 26 5).toNat = 4 ∧ 8 ≤ ((0x20000000#32 : Word).extractLsb' 26 5).toNat := by
  decide

theorem witness_ReservedBitIgnoredOrFaulting :
    (0x80000000#32 : Word).getLsbD 31 = true ∧ (0x7FFFFFFF#32 : Word).getLsbD 31 = false := by decide

theorem witness_DecoderBlockAgreesWithDecode :
    decodeRecord false 0x0BC8C3FF#32 = .ok ⟨.store, 15, 2, 3, 0, -1⟩ ∧
      (decoderPorts 0x10000000#32).illegal = true := by decide

theorem witness_AluResultOfEachOpcode : (0#32 : Word).toInt = 0 ∧ (0xFFFFFFFF#32 : Word).toInt ≠ 0 := by decide

theorem witness_RegistersReadLastWrite : (15 : RegIdx) ≠ 0 ∧ (1 : RegIdx) ≠ 0 ∧ (0 : RegIdx) ≠ 15 := by decide

theorem witness_PcIncrementWraps : (running 0x7FFFFFFF 15 [] []).pc = 0x7FFFFFFF#32 := by decide

theorem witness_FailedPredicateOnlyAdvancesPc :
    predicateOf (at10 0).reservedBitFaults (.data 0x03C00000#32) = some 0b1111#4 ∧
      predicateOf (at10 0).reservedBitFaults (.add 2 1 0 0 5) = some 0b0010#4 ∧ (at10 0).flags &&& 0b0010#4 = 0#4 ∧
      predicateOf (at10 0).reservedBitFaults (.jump 0 5) = some 0#4 ∧ (at10 0).flags &&& 0#4 = 0#4 := by decide

/-- The hypothesis of AddWritesSum, SubWritesDifference, MulWritesLowProduct, HaltSetsHalted and JumpGoesToDisplacement,
with a target, with R0 and with R15. -/
theorem witness_executed :
    (at10 0).flags &&& 0b0110#4 ≠ 0#4 ∧ (1 : RegIdx) ≠ 0 ∧ (1 : RegIdx) ≠ 15 ∧ (15 : RegIdx) ≠ 0 := by decide

theorem witness_DivWritesQuotient :
    (at10 0).flags &&& 0b0100#4 ≠ 0#4 ∧ (BitVec.ofInt 32 (((at10 0).readReg 2).toInt + (-7))).toInt = 0 ∧
      (BitVec.ofInt 32 (((at10 0).readReg 2).toInt + (-8))).toInt ≠ 0 := by decide

/-- The addresses 0 and 31 are the two ends of a memory of 32 words. -/
theorem witness_LoadPlacesWord :
    (at10 0).flags &&& 15#4 ≠ 0#4 ∧ (at10 0).addressOf ⟨.load, 15, 3, 1, 0, -20⟩ = 0 ∧
      (at10 0).addressOf ⟨.load, 15, 3, 1, 2, 4⟩ = 31 ∧ (31 : Int) < (at10 0).memSize := by decide

theorem witness_StorePutsRegister :
    (at10 0).flags &&& 15#4 ≠ 0#4 ∧ (at10 0).addressOf ⟨.store, 15, 15, 1, 0, -20⟩ = 0 ∧
      (at10 0).addressOf ⟨.store, 15, 3, 1, 2, 4⟩ = 31 ∧ (31 : Int) < (at10 0).memSize := by decide

theorem witness_OutOfRangeAccessFaults :
    (at10 0).flags &&& 15#4 ≠ 0#4 ∧ (at10 0).addressOf ⟨.load, 15, 3, 1, 0, -21⟩ = -1 ∧
      (at10 0).addressOf ⟨.store, 15, 3, 1, 2, 5⟩ = 32 ∧ (at10 0).memSize = 32 := by decide

theorem witness_DataWordRunsAsDecoded :
    decodeRecord (at10 0).reservedBitFaults 0x07C43C05#32 = .ok ⟨.load, 15, 1, 0, 15, 5⟩ ∧
      (at10 0).inRange ((at10 0).addressOf ⟨.load, 15, 1, 0, 15, 5⟩) = true ∧
      decodeRecord (at10 0).reservedBitFaults 0x10000000#32 = .error (.undefinedOpcode 4) := by decide

theorem witness_RegisterInstructionsFrame :
    (∃ t, exec (.sub 15 1 2 3 0) (at10 0) = .next t) ∧ (∃ t, exec (.jump 0 1) (at10 0) = .next t) ∧
      (at10 0).flags &&& 0#4 = 0#4 := ⟨⟨_, rfl⟩, ⟨_, rfl⟩, by decide⟩

theorem witness_HaltFrame :
    (∃ t, exec (.halt 15 1 2 3 0) (at10 0) = .next t) ∧ (∃ t, exec (.halt 0 1 2 3 0) (at10 0) = .next t) ∧
      (at10 0).flags &&& 0#4 = 0#4 := ⟨⟨_, rfl⟩, ⟨_, rfl⟩, by decide⟩

theorem witness_LoadFrame :
    (∃ t, exec (.load 15 1 2 3 0) (at10 0) = .next t) ∧ (at10 0).flags &&& 0#4 = 0#4 ∧
      (at10 0).inRange ((at10 0).effectiveAddress .load 2 3 0) = true ∧
      (at10 0).inRange ((at10 0).effectiveAddress .load 1 2 5) = false := ⟨⟨_, rfl⟩, by decide⟩

theorem witness_StoreFrame :
    (∃ t, exec (.store 15 1 2 3 0) (at10 0) = .next t) ∧ (at10 0).flags &&& 0#4 = 0#4 ∧
      (at10 0).inRange ((at10 0).effectiveAddress .store 1 2 4) = true ∧
      (at10 0).inRange ((at10 0).effectiveAddress .store 1 2 5) = false := ⟨⟨_, rfl⟩, by decide⟩

theorem witness_ExecutedInstructionLeavesOneSign :
    predicateOf (at10 0).reservedBitFaults (.div 4 1 2 0 0) = some 0b0100#4 ∧ (at10 0).flags &&& 0b0100#4 ≠ 0#4 ∧
      ∃ t, exec (.div 4 1 2 0 0) (at10 0) = .next t := ⟨by decide, by decide, ⟨_, rfl⟩⟩

theorem witness_StepRunsTheDecodedInstruction :
    (at10 0x0FC44001).engineTurn ∧ (at10 0x0FC44001).pcInRange ∧
      decodeWith (at10 0x0FC44001).reservedBitFaults (at10 0x0FC44001).fetchWord = .ok (.add 15 1 1 0 1) :=
  ⟨running_engineTurn _ _ _ _, by unfold State.pcInRange; decide, by decide⟩

/-- The PC just below and just above memory. -/
theorem witness_FetchOutOfRangeFaults :
    (running 0xFFFFFFFF 15 [] []).engineTurn ∧ ¬ (running 0xFFFFFFFF 15 [] []).pcInRange ∧
      (running 32 15 [] []).engineTurn ∧ ¬ (running 32 15 [] []).pcInRange :=
  ⟨running_engineTurn _ _ _ _, by unfold State.pcInRange; decide, running_engineTurn _ _ _ _, by
    unfold State.pcInRange; decide⟩

theorem witness_UndefinedOpcodeFaults :
    (at10 0x10000000).engineTurn ∧ (at10 0x10000000).pcInRange ∧
      (at10 0x10000000).fetchWord.extractLsb' 26 5 = 4#5 ∧ 8#5 ≤ (at10 0x20000000).fetchWord.extractLsb' 26 5 ∧
      8#5 ≤ (at10 0x7FFFFFFF).fetchWord.extractLsb' 26 5 ∧
      { at10 0x8FC48C04 with reservedBitFaults := true }.reservedBitFaults = true ∧
      { at10 0x8FC48C04 with reservedBitFaults := true }.fetchWord.getLsbD 31 = true :=
  ⟨running_engineTurn _ _ _ _, by unfold State.pcInRange; decide, by decide⟩

/-- A fetch, a decode, a LOAD and a STORE that fault, and a reset that clears FAULT. -/
theorem witness_FaultsFollowTheStepOrder :
    (after (running 32 15 [] [])).map State.fault = some (.boundsError 32 .fetch) ∧
      (after (at10 0x10000000)).map State.fault = some (.decodingError 10 0x10000000#32) ∧
      (after (at10 0x07C403FF)).map State.fault = some (.boundsError (-1) .load) ∧
      (after (at10 0x0BC40064)).map State.fault = some (.boundsError 100 .store) ∧
      (after { hosted .faulted (some .reset) with fault := .boundsError 100 .store }).map State.fault =
        some .noFault := by decide

theorem at10_inv (w : Word) (h : Memory.wf (at10 w).mem = true)
    (hm : (at10 w).mem.all (fun c => decide (c.1 < 32)) = true) : (at10 w).Inv where
  memCanonical := h
  memInside := by
    intro c hc
    have := List.all_eq_true.mp hm c hc
    exact of_decide_eq_true this
  memNonEmpty := by change 1 ≤ 32; decide
  flagsNonEmpty := by change 0b0100#4 ≠ 0#4; decide
  haltedStop := by change false = true ↔ Engine.running = .haltedStop; decide
  faulted := by change FaultStatus.noFault ≠ .noFault ↔ Engine.running = .faulted; decide

/-- The invariant holds in a running state, whose step faults, halts, or goes on. -/
theorem witness_RunningStepMovesEngine :
    (at10 0x10000000).Inv ∧ (at10 0x10000000).engineTurn ∧ (∃ t, step (at10 0x10000000) = .next t ∧ t.fault ≠ .noFault) ∧
      (∃ t, step (at10 0x03C00000) = .next t ∧ t.fault = .noFault ∧ t.halted = true) ∧
      ∃ t, step (at10 0x0FC44001) = .next t ∧ t.fault = .noFault ∧ t.halted = false :=
  ⟨at10_inv _ (by decide) (by decide), running_engineTurn _ _ _ _, ⟨_, rfl, by decide⟩, ⟨_, rfl, by decide⟩,
    ⟨_, rfl, by decide⟩⟩

theorem witness_OneObservationPerDecodedStep :
    (∃ t, step (at10 0x0C000000) = .next t) ∧ (at10 0x0C000000).engineTurn ∧ (at10 0x0C000000).pcInRange ∧
      decodeRecord (at10 0x0C000000).reservedBitFaults (at10 0x0C000000).fetchWord = .ok ⟨.add, 0, 0, 0, 0, 0⟩ ∧
      (∃ t, step (at10 0x10000000) = .next t) ∧
      decodeRecord (at10 0x10000000).reservedBitFaults (at10 0x10000000).fetchWord = .error (.undefinedOpcode 4) :=
  ⟨⟨_, rfl⟩, running_engineTurn _ _ _ _, by unfold State.pcInRange; decide, by decide, ⟨_, rfl⟩, by decide⟩

/-- A LOAD, a STORE, a LOAD out of range, an ADD and a turn without a step. -/
theorem witness_AccessesOfAStep :
    (after (at10 0x07C44000)).map State.bus =
        some [.get .fetch 10 0x07C44000#32, .get .load 20 9#32] ∧
      (after (at10 0x0BC84000)).map State.bus = some [.get .fetch 10 0x0BC84000#32, .put 20 7#32] ∧
      (after (at10 0x07C403FF)).map State.bus = some [.get .fetch 10 0x07C403FF#32] ∧
      (after (at10 0x0FC44001)).map State.bus = some [.get .fetch 10 0x0FC44001#32] ∧
      (after (hosted .idle none)).map State.bus = some [] := by decide

/-- A STORE to address 11 of a word that decodes to HALT (as P6). -/
theorem witness_StoredWordIsFetchedNext :
    let s := running 10 0b0100 [(2, 0x03C00000)] [(10, 0x0BC83C01)]
    s.engineTurn ∧ s.pcInRange ∧ s.halted = false ∧ s.singleStep = false ∧
      decodeRecord s.reservedBitFaults s.fetchWord = .ok ⟨.store, 15, 2, 0, 15, 1⟩ ∧ s.flags &&& 15#4 ≠ 0#4 ∧
      s.addressOf ⟨.store, 15, 2, 0, 15, 1⟩ = s.pc.toInt + 1 ∧
      s.inRange (s.addressOf ⟨.store, 15, 2, 0, 15, 1⟩) = true ∧
      decodeRecord s.reservedBitFaults (s.storedValue 2) = .ok ⟨.halt, 15, 0, 0, 0, 0⟩ :=
  ⟨running_engineTurn _ _ _ _, by unfold State.pcInRange; decide, by decide⟩

/-- An ADD into R15 that goes to -1, and a SUB that goes to 32. -/
theorem witness_JumpOutOfMemoryFaultsAtNextFetch :
    (at10 0x0FFC3FF5).engineTurn ∧ (at10 0x0FFC3FF5).pcInRange ∧ (at10 0x0FFC3FF5).halted = false ∧
      (at10 0x0FFC3FF5).singleStep = false ∧
      decodeRecord (at10 0x0FFC3FF5).reservedBitFaults (at10 0x0FFC3FF5).fetchWord = .ok ⟨.add, 15, 15, 0, 15, -11⟩ ∧
      Opcode.add ∈ [Opcode.add, .sub, .mul, .div] ∧ (at10 0x0FFC3FF5).flags &&& 15#4 ≠ 0#4 ∧
      (at10 0x0FFC3FF5).inRange (sval ((at10 0x0FFC3FF5).result .add 0 15 (-11))) = false ∧
      (at10 0).inRange (sval ((at10 0).result .sub 1 0 (-12))) = false :=
  ⟨running_engineTurn _ _ _ _, by unfold State.pcInRange; decide, by decide⟩

theorem witness_ResetRestoresTheCore : (hosted .faulted (some .reset)).host = some .reset :: [] := rfl

theorem witness_RunStartsTheEngine :
    (hosted .idle (some (.run 7 true))).host = some (.run 7 true) :: [] ∧
      (hosted .idle (some (.run 7 true))).engine = .idle := ⟨rfl, rfl⟩

theorem witness_ContinueAndAbortMoveOnlyEngine :
    ((hosted .paused (some .continueSignal)).host = some .continueSignal :: [] ∧
      (hosted .paused (some .continueSignal)).engine = .paused) ∧
      ((hosted .running (some .abort)).host = some .abort :: [] ∧ (hosted .running (some .abort)).engine = .running) ∧
      (hosted .paused (some .abort)).engine = .paused := ⟨⟨rfl, rfl⟩, ⟨rfl, rfl⟩, rfl⟩

theorem witness_NoStepOutsideRunning :
    (State.reset.host = [] ∧ State.reset.engine = .idle) ∧
      (hosted .paused none).host = none :: [] ∧ (hosted .paused none).engine ≠ .running := by decide

theorem witness_OnlyResetLeavesTheFinalStates :
    (hosted .haltedStop (some (.run 0 false))).host = some (.run 0 false) :: [] ∧
      (hosted .haltedStop (some (.run 0 false))).engine = .haltedStop ∧ (hosted .faulted none).engine = .faulted ∧
      some (HostEvent.run 0 false) ≠ some .reset := by decide

/-- HALTED becomes true by a HALT and false by a reset. -/
theorem witness_HaltedSetOnlyByHalt :
    ((at10 0x03C00000).halted = false ∧ (after (at10 0x03C00000)).map State.halted = some true) ∧
      ({ hosted .haltedStop (some .reset) with halted := true }.halted = true ∧
        (after { hosted .haltedStop (some .reset) with halted := true }).map State.halted = some false) := by decide

theorem witness_StepKeepsTheInvariant :
    (at10 0x0BC84000).Inv ∧ ∃ t, step (at10 0x0BC84000) = .next t :=
  ⟨at10_inv _ (by decide) (by decide), ⟨_, rfl⟩⟩

theorem witness_EveryReadReturnsTheLatestPut :
    replay (at10 0x0BC84000).mem (at10 0x0BC84000).bus = some (at10 0x0BC84000).mem ∧
      ∃ t, step (at10 0x0BC84000) = .next t := ⟨rfl, ⟨_, rfl⟩⟩

theorem witness_RecordsDoNotSteer :
    (∃ t, step (at10 0x0BC84000) = .next t) ∧ ∃ t, step (hosted .faulted (some .reset)) = .next t :=
  ⟨⟨_, rfl⟩, ⟨_, rfl⟩⟩

theorem witness_InstructionIsOneRegisterFileCycle :
    (at10 0).flags &&& 15#4 ≠ 0#4 ∧ (at10 0).flags &&& 0#4 = 0#4 ∧
      (at10 0).inRange ((at10 0).addressOf ⟨.load, 15, 15, 1, 0, 0⟩) = true ∧
      (at10 0).inRange ((at10 0).addressOf ⟨.store, 15, 15, 1, 2, 4⟩) = true := by decide

theorem witness_MemoryPortAgreesWithAccesses :
    (∃ t, (at10 0).memGet .load (20#32 : Word).toInt = some (9#32, t)) ∧
      (∃ t, (at10 0).memPut (31#32 : Word).toInt 5#32 = some t) ∧
      (at10 0).memGet .load (0xFFFFFFFF#32 : Word).toInt = none ∧ (at10 0).memPut (32#32 : Word).toInt 5#32 = none :=
  ⟨⟨_, rfl⟩, ⟨_, rfl⟩, by decide, by decide⟩

theorem witness_RenderedRecordParsesBack :
    (Record.mk .sub 3 15 0 15 (-512)).wf = true ∧ (Record.mk .add 15 1 2 3 511).wf = true := by decide

theorem witness_RewrittenLineParsesBack :
    parseLine "a: LOAD/NZ r1,x # c".toList =
        .ok (.symbolic (some "a".toList) .load 3 (some "NZ".toList) (some 1) "x".toList (some " c".toList)) ∧
      offsetInRange (-512) = true ∧ parseLine "JUMP x".toList = .ok (.symbolic none .jump 15 none none "x".toList none) ∧
      offsetInRange 511 = true := by decide

theorem witness_DataLineHoldsItsValue :
    ((-2 : Int) ^ 31 ≤ -2147483648 ∧ (-2147483648 : Int) ≤ 2 ^ 32 - 1) ∧ ¬ ((4294967296 : Int) ≤ 2 ^ 32 - 1) := by decide

/-- The second definition of a label, and the table that keeps the first. -/
theorem witness_FirstDefinitionStays :
    ∃ q, pass1 5 2 ["DATA".toList, "a: DATA 2".toList] { Pass1.start with table := [("a".toList, 0)], addr := 1 } =
      .ok q ∧ SymbolTable.find [("a".toList, 0)] "a".toList = some 0 := ⟨_, rfl, by decide⟩

theorem witness_ErrorBudgetBoundsTheReports :
    assemble 0 ["bad line".toList] = .aborted [⟨1, .syntaxError⟩] ∧
      assemble 1 ["bad line".toList] = .failed [⟨1, .syntaxError⟩] := by decide

/-- A36 again, with a line of each kind: its last line, a SYMBOLIC one, is at address 2. -/
theorem witness_ImageWordOfEachLine :
    assemble 5 ["x: # c".toList, "ADD r1,r1,r1[0]".toList, "DATA 3".toList, "JUMP/Z x".toList] =
        .ok ["x: # c".toList, "ADD r1,r1,r1[0]".toList, "DATA 3".toList, "ADD/Z  r15,r0,r15[-2]".toList]
          [0x0FC44400#32, 0x3#32, 0x0CBC3FFE#32] ∧
      symbolTable 5 ["x: # c".toList, "ADD r1,r1,r1[0]".toList, "DATA 3".toList, "JUMP/Z x".toList] =
        some [("x".toList, 0)] ∧
      parsedLines 5 ["x: # c".toList, "ADD r1,r1,r1[0]".toList, "DATA 3".toList, "JUMP/Z x".toList] =
        some ([⟨1, "x: # c".toList, .comment (some "x".toList) (some " c".toList)⟩,
          ⟨2, "ADD r1,r1,r1[0]".toList, .full none ⟨.add, 15, 1, 1, 1, 0⟩ none⟩,
          ⟨3, "DATA 3".toList, .data none 3#32 none⟩] ++
          ⟨4, "JUMP/Z x".toList, .symbolic none .jump 2 (some "Z".toList) none "x".toList none⟩ :: []) := by decide

theorem witness_RewrittenLineReachesItsLabel :
    (31 : Nat) < 2 ^ 31 ∧ (at10 0).pc = BitVec.ofNat 32 10 ∧ (10 : Nat) < 2 ^ 31 ∧ (at10 0).flags &&& 0b0100#4 ≠ 0#4 ∧
      31 < (at10 0).memSize ∧ (15 : RegIdx) ≠ 0 := by decide

theorem witness_BootPlacesTheImage : (0 : Nat) < [0x03C00000#32].length ∧ [0x03C00000#32].length ≤ 1 := by decide

end Sys2Proof.Tests
end

section
/-! The invariant of the machine's states, and what the instructions of spec/10_state.md's rules do to registers, FLAGS
and HALTED: the obligations of that family. -/

namespace Sys2Proof.Machine

variable {s t v : State} {r : Record}

/-! ## The invariant -/

theorem State.Inv.halted_eq_false (h : s.Inv) (he : s.engine ≠ .haltedStop) : s.halted = false :=
  Bool.eq_false_iff.mpr (mt h.haltedStop.mp he)

theorem State.reset_inv : State.reset.Inv where
  memCanonical := State.reset_mem_wf
  memInside := by simp [State.reset]
  memNonEmpty := by simp [State.reset, Config.memSize]
  flagsNonEmpty := by simp [State.reset, Config.resetFlags, Flag.always]
  haltedStop := by simp [State.reset]
  faulted := by simp [State.reset]

/-- Settles O46. -/
theorem resetMeetsTheInvariant : Obligations.ResetMeetsTheInvariant := State.reset_inv

/-- The invariant as it stands between an instruction's own meaning and the move of ENGINE (R179): an executed HALT has
set HALTED already, but no HALT faults. -/
structure State.MidInv (s : State) : Prop where
  memCanonical : Memory.wf s.mem = true
  memInside : ∀ c ∈ s.mem, c.1 < s.memSize
  memNonEmpty : 1 ≤ s.memSize
  flagsNonEmpty : s.flags ≠ 0#4
  haltedClear : s.engine = .faulted → s.halted = false
  faulted : s.fault ≠ .noFault ↔ s.engine = .faulted

theorem State.Inv.midInv (h : s.Inv) : s.MidInv :=
  { h with haltedClear := fun he => h.halted_eq_false (by simp [he]) }

theorem State.afterStep_engine (v : State) :
    v.afterStep.engine =
      if v.engine = .faulted then .faulted else if v.halted then .haltedStop else if v.singleStep then .paused
      else .running := by
  unfold State.afterStep
  split_ifs with hf
  · exact hf
  all_goals rfl

theorem State.afterStep_engine_eq_faulted (v : State) : v.afterStep.engine = .faulted ↔ v.engine = .faulted := by
  rw [v.afterStep_engine]
  split_ifs with hf <;> simp [hf]

/-- The move of ENGINE restores the invariant. -/
theorem State.MidInv.afterStep (h : v.MidInv) : v.afterStep.Inv where
  memCanonical := by simpa using h.memCanonical
  memInside := by simpa using h.memInside
  memNonEmpty := by simpa using h.memNonEmpty
  flagsNonEmpty := by simpa using h.flagsNonEmpty
  haltedStop := by
    rw [v.afterStep_engine, v.afterStep_halted]
    by_cases hf : v.engine = .faulted
    · simp [hf, h.haltedClear hf]
    · cases hh : v.halted <;> cases v.singleStep <;> simp [hf]
  faulted := by rw [v.afterStep_fault, v.afterStep_engine_eq_faulted, h.faulted]

/-! ### The invariant through the operations -/

theorem State.Inv.setHost (h : s.Inv) (l : List (Option HostEvent)) : (s.setHost l).Inv := { h with }

theorem State.Inv.logBus (h : s.Inv) (x : BusAccess) : (s.logBus x).Inv := { h with }

theorem State.Inv.fetched (h : s.Inv) (r : Record) : (s.fetched r).Inv := { h with }

theorem State.Inv.setEngine {e : Engine} (h : s.Inv) (hs : s.engine ≠ .haltedStop ∧ s.engine ≠ .faulted)
    (he : e ≠ .haltedStop ∧ e ≠ .faulted) : (s.setEngine e).Inv :=
  { h with
    haltedStop := iff_of_false (mt h.haltedStop.mp hs.1) he.1
    faulted := iff_of_false (mt h.faulted.mp hs.2) he.2 }

theorem State.MidInv.incPc (h : s.MidInv) : s.incPc.MidInv := { h with }

theorem State.MidInv.writeReg (h : s.MidInv) (i : RegIdx) (w : Word) : (s.writeReg i w).MidInv := { h with }

theorem State.MidInv.logBus (h : s.MidInv) (x : BusAccess) : (s.logBus x).MidInv := { h with }

theorem State.MidInv.issue (h : s.MidInv) (op : Opcode) (rs1 rs2 : RegIdx) (d : Int) :
    (s.issue op rs1 rs2 d).MidInv :=
  { h with flagsNonEmpty := ne_zero_of_oneSign (aluFlags_oneSign op _ _) }

theorem State.MidInv.setHalted (h : s.MidInv) (he : s.engine ≠ .faulted) : s.setHalted.MidInv :=
  { h with haltedClear := fun hf => absurd hf he }

theorem State.MidInv.raiseFault {c : FaultStatus} (h : s.MidInv) (hh : s.halted = false) (hc : c ≠ .noFault) :
    (s.raiseFault c).MidInv :=
  { h with
    haltedClear := fun _ => hh
    faulted := iff_of_true hc rfl }

theorem State.MidInv.setWord {a : Nat} (h : s.MidInv) (ha : a < s.memSize) (w : Word) : (s.setWord a w).MidInv :=
  { h with
    memCanonical := Memory.write_wf h.memCanonical a w
    memInside := fun c hc => by
      rcases Memory.mem_write hc with rfl | hc
      · exact ha
      · exact h.memInside c hc }

/-- A fault ends a step with the invariant in place: ENGINE has moved already. -/
theorem State.Inv.raiseFault {c : FaultStatus} (h : s.Inv) (he : s.engine ≠ .haltedStop) (hc : c ≠ .noFault) :
    (s.raiseFault c).Inv := by
  have hm := (h.midInv.raiseFault (h.halted_eq_false he) hc).afterStep
  rwa [show (s.raiseFault c).afterStep = s.raiseFault c from rfl] at hm

theorem State.toNat_lt_memSize {a : Int} (h : s.inRange a = true) : a.toNat < s.memSize := by
  have := (s.inRange_iff a).mp h
  omega

/-! ### The invariant through a turn -/

theorem State.Inv.execRecord (h : s.Inv) (he : s.engine = .running) (hx : execRecord r s = .next v) : v.MidInv := by
  have hm := h.midInv
  have hh : s.halted = false := h.halted_eq_false (by simp [he])
  rcases execRecord_cases hx with
    ⟨-, rfl⟩ | ⟨-, ⟨-, rfl⟩ | ⟨-, rfl⟩ | ⟨-, -, rfl⟩ | ⟨-, -, rfl⟩ | ⟨-, hr, rfl⟩ | ⟨-, -, rfl⟩⟩
  case inl => exact hm.incPc
  · exact (hm.issue ..).setHalted (by simp [he])
  · exact (hm.issue ..).writeReg ..
  · exact ((hm.issue ..).logBus _).writeReg ..
  · exact (hm.issue ..).raiseFault hh (by simp)
  · exact ((hm.issue ..).setWord (State.toNat_lt_memSize hr) _).logBus _
  · exact (hm.issue ..).raiseFault hh (by simp)

theorem State.Inv.coreReset (h : s.Inv) : s.coreReset.Inv :=
  { h with
    flagsNonEmpty := State.reset_inv.flagsNonEmpty
    haltedStop := State.reset_inv.haltedStop
    faulted := State.reset_inv.faulted }

theorem State.Inv.startRun (h : s.Inv) (he : s.engine = .idle) (start : Int) (ss : Bool) :
    (s.startRun start ss).Inv := by
  have hs : ((s.writeReg 15 (wrap32 start)).setSingleStep ss).Inv := { h with }
  rw [State.startRun, h.halted_eq_false (by simp [he])]
  exact hs.setEngine (by simp [he]) (by simp)

theorem State.Inv.hostEvent (h : s.Inv) (e : HostEvent) : (s.hostEvent e).Inv := by
  cases e with
  | reset => exact h.coreReset
  | run start ss =>
    simp only [State.hostEvent]
    split_ifs with he
    · exact h.startRun he start ss
    · exact h
  | continueSignal =>
    simp only [State.hostEvent]
    split_ifs with he
    · exact h.setEngine (by simp [he]) (by simp)
    · exact h
  | abort =>
    simp only [State.hostEvent]
    split_ifs with he
    · exact h.setEngine (by rcases he with he | he <;> simp [he]) (by simp)
    · exact h

/-- Settles O47, by what a turn can do: the host's events, the two faults of the fetch, and an executed record, after
which the move of ENGINE restores the invariant. -/
theorem stepKeepsTheInvariant : Obligations.StepKeepsTheInvariant := by
  intro s t h hstep
  rcases step_cases hstep with
    ⟨e, rest, -, rfl⟩ | ⟨rest, -, -, rfl⟩ | ⟨ht, -, rfl⟩ | ⟨ht, -, -, rfl⟩ | ⟨ht, -, r, v, -, hx, rfl⟩
  · exact (h.setHost rest).hostEvent e
  · exact h.setHost rest
  · exact (h.setHost _).raiseFault (by simp [ht.1]) (by simp)
  · exact ((h.setHost _).logBus _).raiseFault (by simp [ht.1]) (by simp)
  · exact ((h.fetched r).execRecord ht.1 hx).afterStep

/-! ## HALTED and FLAGS -/

/-- HALTED after an executed record: as before, or set by a HALT whose predicate held (R32, R200). -/
theorem execRecord_halted (hx : execRecord r s = .next v) :
    v.halted = s.halted ∨ (r.opcode = .halt ∧ s.flags &&& r.cond ≠ 0#4 ∧ v.halted = true) := by
  rcases execRecord_cases hx with
    ⟨-, rfl⟩ | ⟨hp, ⟨ho, rfl⟩ | ⟨-, rfl⟩ | ⟨-, -, rfl⟩ | ⟨-, -, rfl⟩ | ⟨-, -, rfl⟩ | ⟨-, -, rfl⟩⟩
  case inr.inl => exact .inr ⟨ho, (predicateHolds_iff _ _).mp hp, rfl⟩
  all_goals exact .inl rfl

/-- HALTED after a turn: as before, set by an executed HALT, or cleared by the host's reset (R32). -/
theorem step_halted (h : step s = .next t) :
    t.halted = s.halted ∨
      (t.halted = true ∧ s.engineTurn ∧ s.pcInRange ∧ ∃ r, decodeRecord s.reservedBitFaults s.fetchWord = .ok r ∧
        r.opcode = .halt ∧ s.flags &&& r.cond ≠ 0#4) ∨
      (t.halted = false ∧ s.host.head? = some (some .reset)) := by
  rcases step_cases h with
    ⟨e, rest, hh, rfl⟩ | ⟨rest, -, -, rfl⟩ | ⟨-, -, rfl⟩ | ⟨-, -, -, rfl⟩ | ⟨ht, hpc, r, v, hd, hx, rfl⟩
  · rcases (s.setHost rest).hostEvent_halted e with hs | ⟨rfl, hf⟩
    · exact .inl hs
    · exact .inr (.inr ⟨hf, by simp [hh]⟩)
  · exact .inl rfl
  · exact .inl rfl
  · exact .inl rfl
  · rw [v.afterStep_halted]
    rcases execRecord_halted hx with hv | ⟨ho, hc, hv⟩
    · exact .inl hv
    · exact .inr (.inl ⟨hv, ht, hpc, r, hd, ho, hc⟩)

/-- Settles O45. -/
theorem haltedSetOnlyByHalt : Obligations.HaltedSetOnlyByHalt := by
  intro s t h
  rcases step_halted h with hs | ⟨ht, hx⟩ | ⟨ht, hr⟩
  · exact ⟨fun h0 h1 => by simp [h0, h1] at hs, fun h1 h0 => by simp [h0, h1] at hs⟩
  · exact ⟨fun _ _ => hx, fun _ h0 => by simp [ht] at h0⟩
  · exact ⟨fun _ h1 => by simp [ht] at h1, fun _ _ => hr⟩

/-- FLAGS after a record whose predicate held are the ALU's flags, whatever else the record did (R174). -/
theorem execRecord_flags (hp : s.flags &&& r.cond ≠ 0#4) (hx : execRecord r s = .next v) :
    v.flags = aluFlags r.opcode (s.operand2 r.rs2 r.offset) (s.result r.opcode r.rs1 r.rs2 r.offset) := by
  rcases execRecord_cases hx with
    ⟨hn, -⟩ | ⟨-, ⟨ho, rfl⟩ | ⟨-, rfl⟩ | ⟨ho, -, rfl⟩ | ⟨ho, -, rfl⟩ | ⟨ho, -, rfl⟩ | ⟨ho, -, rfl⟩⟩
  case inl => exact absurd ((predicateHolds_eq_false _ _).mp hn) hp
  case inr.inr.inl => rfl
  all_goals rw [ho]; rfl

/-- An instruction with a predicate runs as a record with that predicate: JUMP as its ADD (R260), a DATA word as what
its bits name (R93). -/
theorem exec_eq_execRecord {i : Instr} {c : Flags} (h : predicateOf s.reservedBitFaults i = some c) :
    ∃ r : Record, r.cond = c ∧ exec i s = execRecord r s := by
  cases i with
  | halt c' rt rs1 rs2 d => exact ⟨⟨.halt, c', rt, rs1, rs2, d⟩, Option.some.inj h, rfl⟩
  | load c' rt rs1 rs2 d => exact ⟨⟨.load, c', rt, rs1, rs2, d⟩, Option.some.inj h, rfl⟩
  | store c' rt rs1 rs2 d => exact ⟨⟨.store, c', rt, rs1, rs2, d⟩, Option.some.inj h, rfl⟩
  | add c' rt rs1 rs2 d => exact ⟨⟨.add, c', rt, rs1, rs2, d⟩, Option.some.inj h, rfl⟩
  | sub c' rt rs1 rs2 d => exact ⟨⟨.sub, c', rt, rs1, rs2, d⟩, Option.some.inj h, rfl⟩
  | mul c' rt rs1 rs2 d => exact ⟨⟨.mul, c', rt, rs1, rs2, d⟩, Option.some.inj h, rfl⟩
  | div c' rt rs1 rs2 d => exact ⟨⟨.div, c', rt, rs1, rs2, d⟩, Option.some.inj h, rfl⟩
  | jump c' d => exact ⟨⟨.add, c', 15, 0, 15, d⟩, Option.some.inj h, rfl⟩
  | data w =>
    cases hd : decodeRecord s.reservedBitFaults w with
    | error e => simp [predicateOf, hd, Except.toOption] at h
    | ok r => exact ⟨r, by simpa [predicateOf, hd, Except.toOption] using h, by simp [exec, execData, hd]⟩

/-- Settles O29: FLAGS are the ALU's, and those hold exactly one sign. -/
theorem executedInstructionLeavesOneSign : Obligations.ExecutedInstructionLeavesOneSign := by
  refine ⟨fun i c s t hc hp hx => ?_, by decide⟩
  obtain ⟨r, rfl, hr⟩ := exec_eq_execRecord hc
  have hs : exactlyOneSign t.flags := by
    rw [execRecord_flags hp (hr ▸ hx)]
    exact aluFlags_oneSign ..
  exact ⟨hs, ne_zero_of_oneSign hs⟩

/-! ## Registers -/

/-- Settles O12. -/
theorem registersReadLastWrite : Obligations.RegistersReadLastWrite := fun s _ _ v =>
  ⟨fun h => s.readReg_writeReg_same h v, fun h => s.readReg_writeReg_other h v, s.readReg_zero, s.writeReg_zero v⟩

/-- Settles O13: the address after 2^31 - 1 is negative, so no memory has it. -/
theorem pcIncrementWraps : Obligations.PcIncrementWraps := by
  refine fun s => ⟨s.pc_incPc_add_one, fun h => ?_⟩
  have hpc : s.incPc.pc.toInt = -2147483648 := by rw [s.pc_incPc_add_one, h]; rfl
  exact ⟨hpc, by simp [State.inRange, hpc]⟩

theorem State.reset_readReg (i : RegIdx) : State.reset.readReg i = 0#32 := by
  unfold State.readReg RegFile.read
  split
  · rfl
  · simp [State.reset]

/-- Settles O39. -/
theorem resetValues : Obligations.ResetValues := ⟨State.reset_readReg, rfl, rfl, rfl, rfl, rfl⟩

/-- An arithmetic instruction changes the PC, and FLAGS and its target when its predicate holds (R26, R174). -/
theorem arithmetic_frame {op : Opcode} {c : Flags} {rt rs1 rs2 : RegIdx} {d : Int}
    (h : arithmetic op c rt rs1 rs2 d s = .next t) :
    SameRegistersBut rt s t ∧ SameMemory s t ∧ t.halted = s.halted ∧ SameEngine s t ∧ SameSurroundings s t ∧
      t.bus = s.bus ∧ (s.flags &&& c = 0#4 → t.flags = s.flags) := by
  rcases gate_next h with ⟨-, rfl⟩ | ⟨hp, hb⟩
  · exact ⟨fun j _ h15 => s.readReg_incPc h15, fun _ => rfl, rfl, ⟨rfl, rfl, rfl⟩, ⟨rfl, rfl, rfl, rfl⟩, rfl,
      fun _ => rfl⟩
  · cases hb
    refine ⟨fun j hj h15 => ?_, fun _ => rfl, rfl, ⟨rfl, rfl, rfl⟩, ⟨rfl, rfl, rfl, rfl⟩, rfl,
      fun h0 => absurd h0 ((predicateHolds_iff _ _).mp hp)⟩
    rw [State.readReg_writeReg_other _ hj, State.issue_readReg, s.readReg_incPc h15]

/-- Settles O25: the five instructions are one arithmetic meaning at different opcodes and operands. -/
theorem registerInstructionsFrame : Obligations.RegisterInstructionsFrame := by
  intro i c rt rs1 rs2 d s t hi hx
  simp only [List.mem_cons, List.not_mem_nil, or_false] at hi
  rcases hi with (rfl | rfl | rfl | rfl) | ⟨rfl, rfl⟩
  all_goals exact arithmetic_frame hx

/-! ## The register file's ports -/

/-- The outputs of a cycle with `pc_inc`, in the terms of the state before it (R25). -/
theorem RegFile.cycle_out (s : State) (ra rb rt wi : RegIdx) (we : Bool) (wd : Word) :
    (RegFile.cycle s.regs ⟨ra, rb, rt, we, wi, wd, true⟩).1 =
      ⟨s.readReg ra, s.readReg rb, s.storedValue rt, s.pc⟩ := by
  rw [← s.incPc_readReg]
  rfl

theorem RegFile.cycle_write (s : State) (ra rb rt wi : RegIdx) (wd : Word) :
    (RegFile.cycle s.regs ⟨ra, rb, rt, true, wi, wd, true⟩).2 = RegFile.write s.incPc.regs wi wd := rfl

theorem RegFile.cycle_noWrite (s : State) (ra rb rt wi : RegIdx) (wd : Word) :
    (RegFile.cycle s.regs ⟨ra, rb, rt, false, wi, wd, true⟩).2 = s.incPc.regs := rfl

/-- Settles O50: what a record can do, case by case, against the cycle's outputs and next registers. -/
theorem instructionIsOneRegisterFileCycle : Obligations.InstructionIsOneRegisterFileCycle := by
  intro s r
  obtain ⟨t, ht⟩ := execRecord_next r s
  refine ⟨t, by rw [exec_toInstr, ht], ?_⟩
  rcases execRecord_cases ht with
    ⟨hp, rfl⟩ | ⟨hp, ⟨ho, rfl⟩ | ⟨ho, rfl⟩ | ⟨ho, hr, rfl⟩ | ⟨ho, hr, rfl⟩ | ⟨ho, hr, rfl⟩ | ⟨ho, hr, rfl⟩⟩
  case inl =>
    have h0 := (predicateHolds_eq_false _ _).mp hp
    exact ⟨fun h => absurd h0 h, fun h => absurd h0 h, fun h => absurd h0 h, fun _ => rfl⟩
  all_goals have h0 := (predicateHolds_iff _ _).mp hp
  case inr.inr.inl =>
    refine ⟨fun _ _ => Prod.ext (RegFile.cycle_out ..) (RegFile.cycle_write ..), ?_, ?_, ?_⟩
    · rintro - hl; simp [hl] at ho
    · rintro - hs; simp [hs] at ho
    · rintro (hc | hh | hs)
      · exact absurd hc h0
      · simp [hh] at ho
      · simp [hs] at ho
  · simp [ho, RegFile.cycle_noWrite]
  · simp [ho, h0, RegFile.cycle_write]
  · simp [ho, h0, hr]
  · simp [ho, RegFile.cycle_noWrite, RegFile.cycle_out, Memory.read_write_same]
  · simp [ho, hr, RegFile.cycle_noWrite]

end Sys2Proof.Machine
end

section
/-! What a step does on the memory port, and what its accesses make of memory (spec/20_memory.md): the obligations of that
family. -/

namespace Sys2Proof.Machine

variable {s t v : State} {r : Record}

/-! ## The data access of a record -/

/-- The data accesses of a record that is run in a state (R59): the one of an executed LOAD or STORE whose address is
valid, else none. -/
def State.dataAccesses (s : State) (r : Record) : List BusAccess :=
  if s.flags &&& r.cond ≠ 0#4 ∧ s.inRange (s.addressOf r) = true then
    match r.opcode with
    | .load => [.get .load (s.addressOf r).toNat (Memory.read s.mem (s.addressOf r).toNat)]
    | .store => [.put (s.addressOf r).toNat (s.storedValue r.rt)]
    | _ => []
  else []

theorem State.dataAccesses_skipped (h : s.flags &&& r.cond = 0#4) : s.dataAccesses r = [] := by
  simp [State.dataAccesses, h]

theorem State.dataAccesses_outOfRange (h : s.inRange (s.addressOf r) = false) : s.dataAccesses r = [] := by
  simp [State.dataAccesses, h]

theorem State.dataAccesses_noData (hl : r.opcode ≠ .load) (hs : r.opcode ≠ .store) : s.dataAccesses r = [] := by
  unfold State.dataAccesses
  split
  · split
    · next ho => exact absurd ho hl
    · next ho => exact absurd ho hs
    · rfl
  · rfl

theorem State.dataAccesses_load (ho : r.opcode = .load) (hp : s.flags &&& r.cond ≠ 0#4)
    (hr : s.inRange (s.addressOf r) = true) :
    s.dataAccesses r = [.get .load (s.addressOf r).toNat (Memory.read s.mem (s.addressOf r).toNat)] := by
  simp [State.dataAccesses, ho, hp, hr]

theorem State.dataAccesses_store (ho : r.opcode = .store) (hp : s.flags &&& r.cond ≠ 0#4)
    (hr : s.inRange (s.addressOf r) = true) :
    s.dataAccesses r = [.put (s.addressOf r).toNat (s.storedValue r.rt)] := by
  simp [State.dataAccesses, ho, hp, hr]

/-- A record performs its data accesses, and memory afterwards is what they make of it. -/
theorem execRecord_accesses (hx : execRecord r s = .next v) :
    v.bus = s.bus ++ s.dataAccesses r ∧ replay s.mem (s.dataAccesses r) = some v.mem := by
  rcases execRecord_cases hx with
    ⟨hp, rfl⟩ | ⟨hp, ⟨ho, rfl⟩ | ⟨ho, rfl⟩ | ⟨ho, hr, rfl⟩ | ⟨-, hr, rfl⟩ | ⟨ho, hr, rfl⟩ | ⟨-, hr, rfl⟩⟩
  case inl => simp [State.dataAccesses_skipped ((predicateHolds_eq_false _ _).mp hp), replay]
  all_goals have hp := (predicateHolds_iff _ _).mp hp
  · simp [State.dataAccesses_noData (r := r) (by simp [ho]) (by simp [ho]), replay]
  · have hl : r.opcode ≠ .load := by rintro h; simp [h] at ho
    have hs : r.opcode ≠ .store := by rintro h; simp [h] at ho
    simp [State.dataAccesses_noData hl hs, replay]
  · simp [State.dataAccesses_load ho hp hr, replay]
  · simp [State.dataAccesses_outOfRange hr, replay]
  · simp [State.dataAccesses_store ho hp hr, replay]
  · simp [State.dataAccesses_outOfRange hr, replay]

/-! ## The accesses of a turn -/

/-- A turn only adds accesses to the record, and they take memory from what it was to what it is (R62). -/
theorem step_accesses (h : step s = .next t) : ∃ b, t.bus = s.bus ++ b ∧ replay s.mem b = some t.mem := by
  rcases step_cases h with
    ⟨e, rest, -, rfl⟩ | ⟨rest, -, -, rfl⟩ | ⟨-, -, rfl⟩ | ⟨-, -, -, rfl⟩ | ⟨-, -, r, v, -, hx, rfl⟩
  · obtain ⟨hmem, -, -, -, hbus, -⟩ := (s.setHost rest).hostEvent_surroundings e
    exact ⟨[], by simp [hbus], by simp [hmem, replay]⟩
  · exact ⟨[], by simp, rfl⟩
  · exact ⟨[], by simp, rfl⟩
  · exact ⟨[.get .fetch (sval s.pc).toNat s.fetchWord], rfl, if_pos rfl⟩
  · obtain ⟨hbus, hmem⟩ := execRecord_accesses hx
    refine ⟨.get .fetch (sval s.pc).toNat s.fetchWord :: s.dataAccesses r, ?_, ?_⟩
    · rw [v.afterStep_bus, hbus]
      exact List.append_assoc ..
    · rw [v.afterStep_mem, ← hmem]
      exact if_pos rfl

/-- Settles O48: the accesses a turn adds replay from the memory the earlier ones made. -/
theorem everyReadReturnsTheLatestPut : Obligations.EveryReadReturnsTheLatestPut := by
  intro m s t hm h
  obtain ⟨b, hbus, hmem⟩ := step_accesses h
  rw [hbus, replay_append b hm, hmem]

/-- Settles O36. -/
theorem accessesOfAStep : Obligations.AccessesOfAStep := by
  intro s t h
  rcases step_cases h with
    ⟨e, rest, hh, rfl⟩ | ⟨rest, -, he, rfl⟩ | ⟨-, hpc, rfl⟩ | ⟨ht, hpc, ⟨e, hd⟩, rfl⟩ | ⟨ht, hpc, r, v, hd, hx, rfl⟩
  · obtain ⟨-, -, -, -, hbus, -⟩ := (s.setHost rest).hostEvent_surroundings e
    exact ⟨fun _ => hbus, fun ht => absurd ht (not_engineTurn_of_event hh)⟩
  · exact ⟨fun _ => rfl, fun ht => absurd ht.1 he⟩
  · exact ⟨fun _ => rfl, fun _ hr => absurd hr hpc⟩
  · exact ⟨fun hn => absurd hpc (hn.resolve_left (not_not_intro ht)), fun _ _ =>
      ⟨[], (List.append_nil _).symm, fun _ => rfl, fun r' hd' => by simp [hd] at hd'⟩⟩
  · refine ⟨fun hn => absurd hpc (hn.resolve_left (not_not_intro ht)), fun _ _ =>
      ⟨s.dataAccesses r, ?_, fun ⟨e, hd'⟩ => by simp [hd] at hd', fun r' hd' => ?_⟩⟩
    · rw [v.afterStep_bus, (execRecord_accesses hx).1]
      rfl
    · obtain rfl : r = r' := by simpa [hd] using hd'
      rfl

/-! ## A STORE to the next instruction's address -/

/-- The step of an engine turn whose fetch succeeds and decodes (R171, R172, R176). -/
theorem step_of_decodes (ht : s.engineTurn) (hpc : s.pcInRange)
    (hd : decodeRecord s.reservedBitFaults s.fetchWord = .ok r) :
    step s = mapNext State.afterStep (exec r.toInstr (s.fetched r)) := by
  have hf := State.fetchDecode_of_ok (s := s.setHost s.host.tail) (s.pcInRange_iff.mp hpc) hd
  rw [step_of_engineTurn ht, instructionStep, hf]
  rfl

/-- The answer of an executed STORE whose address is valid. -/
theorem execRecord_store (ho : r.opcode = .store) (hp : s.flags &&& r.cond ≠ 0#4)
    (hr : s.inRange (s.addressOf r) = true) :
    execRecord r s = .next (((s.issue .store r.rs1 r.rs2 r.offset).setWord (s.addressOf r).toNat
      (s.storedValue r.rt)).logBus (.put (s.addressOf r).toNat (s.storedValue r.rt))) := by
  simp only [execRecord, ho, execStore_next, (predicateHolds_iff _ _).mpr hp, if_true]
  rw [s.effectiveAddress_eq .store r (by simp), s.incPc_readReg, if_pos hr]

/-- A step that stores leaves the stored word, the next PC and, with no reason to stop, a running engine. -/
theorem step_store (ht : s.engineTurn) (hpc : s.pcInRange) (hh : s.halted = false) (hss : s.singleStep = false)
    (hd : decodeRecord s.reservedBitFaults s.fetchWord = .ok r) (ho : r.opcode = .store)
    (hp : s.flags &&& r.cond ≠ 0#4) (hr : s.inRange (s.addressOf r) = true) :
    ∃ t, step s = .next t ∧ t.pc = s.pc + 1#32 ∧ t.engine = .running ∧ t.memSize = s.memSize ∧
      t.reservedBitFaults = s.reservedBitFaults ∧
      t.mem = Memory.write s.mem (s.addressOf r).toNat (s.storedValue r.rt) := by
  have hx := execRecord_store (s := s.fetched r) ho hp hr
  refine ⟨_, by rw [step_of_decodes ht hpc hd, exec_toInstr, hx, mapNext], ?_, ?_, ?_, ?_, ?_⟩
  · rw [← s.pc_incPc_add_one, State.pc, State.readReg, State.afterStep_regs]
    rfl
  · have he : (s.fetched r).engine = .running := ht.1
    have hh' : (s.fetched r).halted = false := hh
    have hss' : (s.fetched r).singleStep = false := hss
    simp [State.afterStep_engine, he, hh', hss']
  · exact State.afterStep_memSize _
  · exact State.afterStep_reservedBitFaults _
  · exact State.afterStep_mem _

/-- The address one above a word's, where no wrap comes between, is that of the incremented word. -/
theorem add_one_eq_of_toInt {w a : Word} (h : a.toInt = w.toInt + 1) : w + 1#32 = a := by
  apply BitVec.eq_of_toInt_eq
  rw [BitVec.toInt_add, show (1#32 : Word).toInt = 1 from rfl, ← h, BitVec.toInt_bmod_cancel]

/-- Settles O37: the word just put is read at the next PC, which is the address of the put. -/
theorem storedWordIsFetchedNext : Obligations.StoredWordIsFetchedNext := by
  intro s r r' ht hpc hh hss hd ho hp ha hr hd'
  obtain ⟨t, hstep, htpc, hte, hsize, hrb, hmem⟩ := step_store ht hpc hh hss hd ho hp hr
  have haddr : t.pc.toInt = s.addressOf r := by rw [htpc, add_one_eq_of_toInt ha]; rfl
  have hword : t.fetchWord = s.storedValue r.rt := by
    rw [State.fetchWord, haddr, hmem, Memory.read_write_same]
  refine ⟨t, hstep, htpc, hte, hword, fun hhost => step_of_decodes ⟨hte, .inl hhost⟩ ?_ (by rwa [hrb, hword])⟩
  rw [State.pcInRange, haddr, hsize]
  exact (s.inRange_iff _).mp hr

/-! ## An address out of range -/

/-- The kind of an opcode's data access. -/
def dataKind : Opcode → Option AccessKind
  | .load => some .load
  | .store => some .store
  | _ => none

/-- The answer of an executed LOAD or STORE whose address is out of range (R54, R292). -/
theorem execRecord_outOfRange {k : AccessKind} (hk : dataKind r.opcode = some k) (hp : s.flags &&& r.cond ≠ 0#4)
    (hr : s.inRange (s.addressOf r) = false) :
    execRecord r s =
      .next ((s.issue r.opcode r.rs1 r.rs2 r.offset).raiseFault (.boundsError (s.addressOf r) k)) := by
  have hpred := (predicateHolds_iff _ _).mpr hp
  cases ho : r.opcode <;> rw [ho] at hk <;> cases hk
  case load =>
    simp only [execRecord, ho, execLoad_next, hpred, if_true]
    rw [s.effectiveAddress_eq .load r (by simp), hr]
    rfl
  case store =>
    simp only [execRecord, ho, execStore_next, hpred, if_true]
    rw [s.effectiveAddress_eq .store r (by simp), hr]
    rfl

/-- The flags of LOAD and STORE are the sign of the address (R146, R208). -/
theorem State.issue_flags_address {k : AccessKind} (hk : dataKind r.opcode = some k) :
    (s.issue r.opcode r.rs1 r.rs2 r.offset).flags =
      signOf (wrap32 ((s.readReg r.rs1).toInt + (s.readReg r.rs2).toInt + r.offset)) := by
  have hop : r.opcode ≠ .sub ∧ r.opcode ≠ .mul ∧ r.opcode ≠ .div := by
    refine ⟨?_, ?_, ?_⟩ <;> intro ho <;> simp [ho, dataKind] at hk
  rw [State.issue_flags, s.result_of_adds _ _ _ hop, aluFlags, if_neg (fun h => hop.2.2 h.1), signFlag_eq_signOf]

/-- What an access out of range leaves, for LOAD and STORE alike. -/
theorem exec_outOfRange {k : AccessKind} (hk : dataKind r.opcode = some k) (hp : s.flags &&& r.cond ≠ 0#4)
    (hr : s.addressOf r < 0 ∨ (s.memSize : Int) ≤ s.addressOf r) :
    ∃ t, exec r.toInstr s = .next t ∧ t.fault = .boundsError (s.addressOf r) k ∧ t.engine = .faulted ∧
      t.flags = signOf (wrap32 ((s.readReg r.rs1).toInt + (s.readReg r.rs2).toInt + r.offset)) ∧
      t.pc = s.pc + 1#32 ∧ SameRegisters s t ∧ t.mem = s.mem ∧ t.bus = s.bus := by
  have hout : s.inRange (s.addressOf r) = false := by
    rw [Bool.eq_false_iff, Ne, s.inRange_iff]
    omega
  exact ⟨_, (exec_toInstr r s).trans (execRecord_outOfRange hk hp hout), rfl, rfl, State.issue_flags_address hk,
    s.pc_incPc_add_one, fun j hj => s.readReg_incPc hj, rfl, rfl⟩

/-- Settles O22. -/
theorem outOfRangeAccessFaults : Obligations.OutOfRangeAccessFaults := fun c rt rs1 rs2 d _ hp hr =>
  ⟨exec_outOfRange (r := ⟨.load, c, rt, rs1, rs2, d⟩) rfl hp hr,
    exec_outOfRange (r := ⟨.store, c, rt, rs1, rs2, d⟩) rfl hp hr⟩

/-! ## The memory port -/

theorem memPort_outOfRange {q : MemRequest} (h : s.inRange (sval q.addr) = false) :
    memPort s.memSize s.mem q = (⟨0#32, true⟩, s.mem) :=
  if_neg (fun hc => by simp [(s.inRange_iff _).mpr hc] at h)

theorem memPort_get {a w : Word} (h : s.inRange (sval a) = true) :
    memPort s.memSize s.mem ⟨false, a, w⟩ = (⟨Memory.read s.mem (sval a).toNat, false⟩, s.mem) :=
  if_pos ((s.inRange_iff _).mp h)

theorem memPort_put {a w : Word} (h : s.inRange (sval a) = true) :
    memPort s.memSize s.mem ⟨true, a, w⟩ = (⟨0#32, false⟩, Memory.write s.mem (sval a).toNat w) :=
  if_pos ((s.inRange_iff _).mp h)

/-- `mem_err` says exactly that the address is out of range (R54, R67). -/
theorem memPort_err (q : MemRequest) :
    (memPort s.memSize s.mem q).1.err = true ↔ s.inRange (sval q.addr) = false := by
  obtain ⟨we, a, w⟩ := q
  cases h : s.inRange (sval a) with
  | false => simp [memPort_outOfRange (q := ⟨we, a, w⟩) h]
  | true => cases we <;> simp [memPort_get, memPort_put, h]

/-- Settles O51. -/
theorem memoryPortAgreesWithAccesses : Obligations.MemoryPortAgreesWithAccesses := by
  intro s k a w
  refine ⟨?_, ?_, fun x t hx => ?_, fun t hx => ?_⟩
  · rw [State.memGet_eq_none, memPort_err]
  · rw [State.memPut_eq_none, memPort_err]
  · obtain ⟨hr, rfl, rfl⟩ := State.memGet_eq_some hx
    simp [memPort_get hr]
  · obtain ⟨hr, rfl⟩ := State.memPut_eq_some hx
    simp [memPort_put hr]

end Sys2Proof.Machine
end

section
/-! The codec on whole records: what decodes, what bit 31 does, and that decoding undoes encoding (spec/30_encoding.md,
spec/40_bit_codec.md); and what the words of JUMP and DATA do when they are executed: the obligations of that family. -/

namespace Sys2Proof

/-! ## Which words decode -/

theorem Opcode.exists_ofNum {n : Nat} (h : n ∈ [0, 1, 2, 3, 5, 6, 7]) : ∃ op, Opcode.ofNum n = some op := by
  simp only [List.mem_cons, List.not_mem_nil, or_false] at h
  rcases h with rfl | rfl | rfl | rfl | rfl | rfl | rfl <;> exact ⟨_, rfl⟩

theorem Opcode.ofNum_eq_none {n : Nat} (h : n = 4 ∨ 8 ≤ n) : Opcode.ofNum n = none := by
  unfold Opcode.ofNum
  split
  case h_8 => rfl
  all_goals omega

/-- A word whose opcode field is defined decodes, its fields being its bit ranges (R115). -/
theorem decodeRecord_of_opcode {b : Bool} {w : Word} {op : Opcode} (hb : (b && w.getLsbD 31) = false)
    (hop : Opcode.ofNum (w.extractLsb' 26 5).toNat = some op) :
    decodeRecord b w = .ok
      { opcode := op
        cond := w.extractLsb' 22 4
        rt := (w.extractLsb' 18 4).toFin
        rs1 := (w.extractLsb' 14 4).toFin
        rs2 := (w.extractLsb' 10 4).toFin
        offset := (w.extractLsb' 0 10).toInt } := by
  have hfin (x : BitVec 4) : Fin.ofNat 16 x.toNat = x.toFin := Fin.ext (Nat.mod_eq_of_lt x.isLt)
  simp only [decodeRecord, hb, extract_eq_extractLsb', extractSigned_eq_toInt, Nat.reduceSub, Nat.reduceAdd, hop, hfin,
    BitVec.ofNat_toNat, BitVec.setWidth_eq, Bool.false_eq_true, if_false]

theorem decodeRecord_of_undefined {b : Bool} {w : Word} (hb : (b && w.getLsbD 31) = false)
    (hop : Opcode.ofNum (w.extractLsb' 26 5).toNat = none) :
    decodeRecord b w = .error (.undefinedOpcode (w.extractLsb' 26 5).toNat) := by
  simp only [decodeRecord, hb, extract_eq_extractLsb', Nat.reduceSub, Nat.reduceAdd, hop, Bool.false_eq_true, if_false]

theorem decodeWith_of_error {b : Bool} {w : Word} {e : DecodeError} (h : decodeRecord b w = .error e) :
    decodeWith b w = .error e := by simp [decodeWith, h, Except.map]

/-- Settles O5. -/
theorem onlySevenOpcodesDecode : Obligations.OnlySevenOpcodesDecode := by
  refine fun w => ⟨fun hn => ?_, fun hn => ?_⟩
  · obtain ⟨op, hop⟩ := Opcode.exists_ofNum hn
    exact ⟨_, decodeWith_of_ok (decodeRecord_of_opcode rfl hop), Record.toInstr_isHardware _⟩
  · exact decodeWith_of_error (decodeRecord_of_undefined rfl (Opcode.ofNum_eq_none hn))

/-! ## Bit 31 -/

/-- With the check off, decoding reads the six fields and nothing else, and clearing bit 31 leaves each of them (R89). -/
theorem decodeRecord_clearBit31 (w : Word) : decodeRecord false (w &&& 0x7FFFFFFF#32) = decodeRecord false w := by
  obtain ⟨hop, hc, ht, ha, hb, hd, -⟩ := extractLsb'_of_layout (w.extractLsb' 26 5) (w.extractLsb' 22 4)
    (w.extractLsb' 18 4) (w.extractLsb' 14 4) (w.extractLsb' 10 4) (w.extractLsb' 0 10)
  rw [← layout_of_extractLsb'] at hop hc ht ha hb hd
  simp only [decodeRecord, extract_eq_extractLsb', extractSigned_eq_toInt, Nat.reduceSub, Nat.reduceAdd, hop, hc, ht, ha,
    hb, hd, Bool.false_and]

theorem decodeRecord_reservedBitSet {w : Word} (h : w.getLsbD 31 = true) :
    decodeRecord true w = .error .reservedBitSet := by
  unfold decodeRecord
  rw [h]
  rfl

/-- The check of bit 31 has no effect on a word that has it clear. -/
theorem decodeRecord_of_bit31_clear (b : Bool) {w : Word} (h : w.getLsbD 31 = false) :
    decodeRecord b w = decodeRecord false w := by
  unfold decodeRecord
  rw [h, Bool.and_false, Bool.and_false]

/-- Settles O6. -/
theorem reservedBitIgnoredOrFaulting : Obligations.ReservedBitIgnoredOrFaulting := by
  refine ⟨fun w => ?_, fun w h => ?_, fun w h => ?_, fun r => packFields_bit31 ..⟩
  · rw [decodeWith, decodeWith, decodeRecord_clearBit31]
  · exact decodeWith_of_error (decodeRecord_reservedBitSet h)
  · rw [decodeWith, decodeWith, decodeRecord_of_bit31_clear true h]

/-! ## Decoding undoes encoding -/

/-- The six inserts put each value, truncated, in its own place (R112, R116). -/
theorem packFields_eq_layout (op c t a b d : Int) :
    packFields op c t a b d =
      0#1 ++ BitVec.ofInt 5 op ++ BitVec.ofInt 4 c ++ BitVec.ofInt 4 t ++ BitVec.ofInt 4 a ++ BitVec.ofInt 4 b ++
        BitVec.ofInt 10 d := by
  apply BitVec.eq_of_getLsbD_eq
  intro k hk
  have hk' : k < 32 := hk
  simp only [packFields, getLsbD_insert, hk', BitVec.getLsbD_append]
  interval_cases k <;> rfl

/-- The offset of a well-formed record is the value of its field (R83, R114). -/
theorem toInt_ofInt_of_offsetInRange {d : Int} (h : offsetInRange d = true) : (BitVec.ofInt 10 d).toInt = d := by
  simp only [offsetInRange, Bool.and_eq_true, decide_eq_true_eq] at h
  exact BitVec.toInt_ofInt_eq_self (by decide) (by omega) (by omega)

/-- The word of a well-formed record decodes to the record, whichever value `RESERVED_BIT_FAULTS` has (R117). -/
theorem decodeRecord_encode (b : Bool) {r : Record} (h : r.wf = true) : decodeRecord b r.encode = .ok r := by
  obtain ⟨hop, hc, ht, ha, hb, hd, h31⟩ := extractLsb'_of_layout (BitVec.ofInt 5 r.opcode.num)
    (BitVec.ofInt 4 r.cond.toNat) (BitVec.ofInt 4 r.rt.val) (BitVec.ofInt 4 r.rs1.val) (BitVec.ofInt 4 r.rs2.val)
    (BitVec.ofInt 10 r.offset)
  rw [← packFields_eq_layout] at hop hc ht ha hb hd h31
  have hnum : (BitVec.ofInt 5 r.opcode.num).toNat = r.opcode.num := by cases r.opcode <;> rfl
  have hreg (i : RegIdx) : (BitVec.ofInt 4 i.val).toFin = i := by
    rw [BitVec.ofInt_natCast]
    exact Fin.ext (Nat.mod_eq_of_lt i.isLt)
  have hcond : BitVec.ofInt 4 r.cond.toNat = r.cond := by
    rw [BitVec.ofInt_natCast, BitVec.ofNat_toNat, BitVec.setWidth_eq]
  have hdec := decodeRecord_of_opcode (b := b) (w := r.encode) (op := r.opcode)
    (by rw [Record.encode, h31, Bool.and_false]) (by rw [Record.encode, hop, hnum, Opcode.ofNum_num])
  rw [hdec, Record.encode, hc, ht, ha, hb, hd, hreg, hreg, hreg, hcond, toInt_ofInt_of_offsetInRange h]

end Sys2Proof

namespace Sys2Proof.Machine

variable {s v : State} {r : Record} {w : Word}

/-! ## JUMP and DATA when they are executed -/

/-- Settles O2: the ADD's word decodes back to it. -/
theorem jumpIsAddIntoPc : Obligations.JumpIsAddIntoPc := fun c d _ =>
  ⟨rfl, fun h => decodeWith_of_ok (decodeRecord_encode _ (r := ⟨.add, c, 15, 0, 15, d⟩) h), rfl⟩

theorem execData_of_ok (h : decodeRecord s.reservedBitFaults w = .ok r) : execData w s = execRecord r s := by
  simp [execData, h]

theorem execData_of_error {e : DecodeError} (h : decodeRecord s.reservedBitFaults w = .error e) :
    execData w s = .next (s.raiseFault (.decodingError (sval s.pc) w)) := by simp [execData, h]

/-- A record faults only by an access out of range (R292); without one, FAULT and ENGINE stay. -/
theorem execRecord_noFault (hr : r.opcode = .load ∨ r.opcode = .store → s.inRange (s.addressOf r) = true)
    (hx : execRecord r s = .next v) : v.fault = s.fault ∧ v.engine = s.engine := by
  rcases execRecord_cases hx with
    ⟨-, rfl⟩ | ⟨-, ⟨-, rfl⟩ | ⟨-, rfl⟩ | ⟨-, -, rfl⟩ | ⟨ho, hout, -⟩ | ⟨-, -, rfl⟩ | ⟨ho, hout, -⟩⟩
  case inr.inr.inr.inr.inl => simp [hr (.inl ho)] at hout
  case inr.inr.inr.inr.inr.inr => simp [hr (.inr ho)] at hout
  all_goals exact ⟨rfl, rfl⟩

/-- Settles O24. -/
theorem dataWordRunsAsDecoded : Obligations.DataWordRunsAsDecoded := by
  refine fun w s => ⟨fun r hd => ⟨?_, fun hr => ?_⟩, fun e hd => execData_of_error hd⟩
  · rw [exec_toInstr]
    exact execData_of_ok hd
  · obtain ⟨t, ht⟩ := execRecord_next r s
    exact ⟨t, (execData_of_ok hd).trans ht, execRecord_noFault hr ht⟩

end Sys2Proof.Machine
end

section
/-! The instruction codec's functional statements (spec/40_bit_codec.md): the bit-field laws, the packing of the fields,
the two directions of the decode and encode round trip, the decoder block, and the rendering of a record read back: the
obligations of that family. -/

namespace Sys2Proof

/-! ## Round trips -/

/-- Settles O1. -/
theorem decodeOfEncodeReturnsTheInstruction : Obligations.DecodeOfEncodeReturnsTheInstruction := by
  intro b i hhw hwf
  obtain ⟨r, rfl⟩ := Instr.exists_record hhw
  rw [Record.encode_toInstr]
  exact decodeWith_of_ok (decodeRecord_encode b (r.toInstr_wf ▸ hwf))

/-- Settles O8. -/
theorem packingTruncatesEachField : Obligations.PackingTruncatesEachField := packFields_eq_layout

/-- A bit range taken as an unsigned value and truncated to its own width is the bit range. -/
theorem ofInt_toNat {n : Nat} (x : BitVec n) : BitVec.ofInt n x.toNat = x := by
  rw [BitVec.ofInt_natCast, BitVec.ofNat_toNat, BitVec.setWidth_eq]

/-- Encoding what a word decodes to loses its bit 31 and nothing else (R118). -/
theorem encode_of_opcode {w : Word} {op : Opcode} (hop : Opcode.ofNum (w.extractLsb' 26 5).toNat = some op) :
    (Record.mk op (w.extractLsb' 22 4) (w.extractLsb' 18 4).toFin (w.extractLsb' 14 4).toFin
      (w.extractLsb' 10 4).toFin (w.extractLsb' 0 10).toInt).encode = w &&& 0x7FFFFFFF#32 := by
  simp only [Record.encode, packFields_eq_layout, BitVec.val_toFin, ← Opcode.num_of_ofNum hop, ofInt_toNat,
    BitVec.ofInt_toInt, ← layout_of_extractLsb']

/-- Settles O3. -/
theorem encodeOfDecodeDropsOnlyBit31 : Obligations.EncodeOfDecodeDropsOnlyBit31 := by
  intro w hw
  obtain ⟨op, hop⟩ := Opcode.exists_ofNum hw
  have hdec := decodeRecord_of_opcode (b := false) rfl hop
  exact ⟨_, decodeWith_of_ok hdec, (Record.encode_toInstr _).trans (encode_of_opcode hop),
    (Record.toInstr_wf _).trans (decodeRecord_wf hdec), Record.toInstr_isHardware _⟩

/-! ## The bit-field primitives (R113) -/

/-- The field of an insert is the value, truncated to the field. -/
theorem extractLsb'_insert (v : Int) (w : Word) {lo hi : Nat} (hlo : lo ≤ hi) (hhi : hi ≤ 31) :
    (insert v w lo hi).extractLsb' lo (hi - lo + 1) = BitVec.ofInt (hi - lo + 1) v := by
  apply BitVec.eq_of_getLsbD_eq
  intro k hk
  rw [BitVec.getLsbD_extractLsb', getLsbD_insert v w lo hi (lo + k) (by omega), if_pos (by omega),
    Nat.add_sub_cancel_left, decide_eq_true hk, Bool.true_and]

theorem getLsbD_insert_outside (v : Int) (w : Word) {lo hi k : Nat} (hlo : lo ≤ hi) (hk : k < 32)
    (hout : k < lo ∨ hi < k) :
    (insert v w lo hi).getLsbD k = w.getLsbD k := by
  rw [getLsbD_insert v w lo hi k hk, if_neg (by omega)]

theorem extract_insert (v : Int) (w : Word) {lo hi : Nat} (hlo : lo ≤ hi) (hhi : hi ≤ 31) :
    (extract (insert v w lo hi) lo hi : Int) = v % 2 ^ (hi - lo + 1) := by
  have hpos : (0 : Int) < 2 ^ (hi - lo + 1) := by positivity
  rw [extract_eq_extractLsb', extractLsb'_insert v w hlo hhi, BitVec.toNat_ofInt]
  push_cast
  exact Int.toNat_of_nonneg (Int.emod_nonneg v hpos.ne')

theorem extractSigned_insert (v : Int) (w : Word) {lo hi : Nat} (hlo : lo ≤ hi) (hhi : hi ≤ 31) :
    extractSigned (insert v w lo hi) lo hi = v.bmod (2 ^ (hi - lo + 1)) := by
  rw [extractSigned_eq_toInt, extractLsb'_insert v w hlo hhi, BitVec.toInt_ofInt]

/-- Settles O4: the field of an insert is the value truncated to the field, read unsigned or signed. -/
theorem bitFieldInsertExtractLaws : Obligations.BitFieldInsertExtractLaws := by
  intro v w lo hi hlo hhi
  have hle := BitVec.le_toInt ((insert v w lo hi).extractLsb' lo (hi - lo + 1))
  have hlt := BitVec.toInt_lt (x := (insert v w lo hi).extractLsb' lo (hi - lo + 1))
  rw [← extractSigned_eq_toInt, Nat.add_sub_cancel] at hle hlt
  refine ⟨fun k hk hout => getLsbD_insert_outside v w hlo hk hout, extract_insert v w hlo hhi, hle, hlt, ?_⟩
  rw [extractSigned_insert v w hlo hhi]
  exact Int.emod_eq_zero_of_dvd (by exact_mod_cast Int.dvd_bmod_sub_self)

/-! ## The decoder block (R119) -/

theorem decoderPorts_illegal (w : Word) :
    (Machine.decoderPorts w).illegal = (Opcode.ofNum (w.extractLsb' 26 5).toNat).isNone := by
  have hall : ∀ x : BitVec 5, (!([0#5, 1#5, 2#5, 3#5, 5#5, 6#5, 7#5].contains x)) = (Opcode.ofNum x.toNat).isNone := by
    decide
  exact hall _

/-- Settles O9. -/
theorem decoderBlockAgreesWithDecode : Obligations.DecoderBlockAgreesWithDecode := by
  intro w
  rw [decoderPorts_illegal]
  cases hop : Opcode.ofNum (w.extractLsb' 26 5).toNat with
  | none =>
    have hdec := decodeRecord_of_undefined (b := false) rfl hop
    exact ⟨⟨fun _ => ⟨_, hdec⟩, fun _ => rfl⟩, fun r hr => nomatch hdec.symm.trans hr⟩
  | some op =>
    have hdec := decodeRecord_of_opcode (b := false) rfl hop
    refine ⟨⟨(nomatch ·), fun ⟨e, he⟩ => nomatch hdec.symm.trans he⟩, fun r hr => ?_⟩
    cases hdec.symm.trans hr
    exact ⟨Opcode.num_of_ofNum hop, rfl, rfl, rfl, rfl, rfl⟩

end Sys2Proof

namespace Sys2Proof.Asm

/-! ## Words and blanks (R242) -/

/-- A token of the WORD kind, which mnemonics and predicates are: one or more upper-case letters (R242). -/
def IsWord (w : Text) : Prop := w ≠ [] ∧ ∀ c ∈ w, isUpper c = true

theorem opcodeName_isWord (o : Opcode) : IsWord (opcodeName o) := by
  refine ⟨?_, List.all_eq_true.mp ?_⟩ <;> cases o <;> decide

theorem condLetters_isWord (f : Flags) : IsWord (condLetters f) := by
  refine ⟨?_, List.all_eq_true.mp ?_⟩ <;> revert f <;> decide

/-- A word is scanned as any token its letters can start and go on, when the character after it cannot go on. -/
theorem scan_word {start rest : Char → Bool} {w u : Text} {x : Char} (hw : IsWord w)
    (hstart : ∀ c, isUpper c = true → start c = true) (hrest : ∀ c, isUpper c = true → rest c = true)
    (hx : rest x = false) : scan start rest (w ++ x :: u) = some (w, x :: u) := by
  obtain ⟨hne, hup⟩ := hw
  cases w with
  | nil => exact absurd rfl hne
  | cons c t =>
    exact scan_append (hstart c (hup c (by simp))) (fun y hy => hrest y (hup y (by simp [hy]))) (by simpa using hx)

theorem skipBlanks_cons {c : Char} {t : Text} (h : isBlank c = false) : skipBlanks (c :: t) = c :: t := by
  simp [skipBlanks, h]

theorem skipBlanks_regName (i : RegIdx) (u : Text) : skipBlanks (regName i ++ u) = regName i ++ u :=
  skipBlanks_cons (by decide)

/-- A character of a kind that has neither the space nor the tab in it is no blank. -/
theorem not_isBlank_of_kind {kind : Char → Bool} {c : Char} (h : kind c = true) (hspace : kind ' ' = false)
    (htab : kind '\t' = false) : isBlank c = false := by
  simp only [isBlank, Bool.or_eq_false_iff, beq_eq_false_iff_ne]
  exact ⟨fun hc => by simp [hc, hspace] at h, fun hc => by simp [hc, htab] at h⟩

theorem skipBlanks_natText (n : Nat) (u : Text) : skipBlanks (natText n ++ u) = natText n ++ u := by
  have hd := natText_isDigit n
  cases h : natText n with
  | nil => exact absurd h (natDigits_ne_nil n n)
  | cons c t => exact skipBlanks_cons (not_isBlank_of_kind (hd c (by simp [h])) (by decide) (by decide))

theorem skipBlanks_intText (d : Int) (u : Text) : skipBlanks (intText d ++ u) = intText d ++ u := by
  unfold intText
  split
  · exact skipBlanks_cons (by decide)
  · exact skipBlanks_natText ..

theorem someBlanks_regName (i : RegIdx) (u : Text) :
    someBlanks (' ' :: ' ' :: (regName i ++ u)) = some (regName i ++ u) :=
  congrArg some (skipBlanks_regName i u)

/-! ## Tokens of a rendering before the separator that follows them -/

theorem expect_skipBlanks {x : Char} (hx : isBlank x = false) (u : Text) : expect x (skipBlanks (x :: u)) = some u := by
  simp [skipBlanks_cons hx, expect]

theorem scanReg_regName_cons (i : RegIdx) {x : Char} (hx : isRegChar x = false) (u : Text) :
    scanReg (regName i ++ x :: u) = some (regName i, x :: u) := scanReg_regName i (by simpa using hx)

theorem scanReg_skipBlanks (i : RegIdx) {x : Char} (hx : isRegChar x = false) (u : Text) :
    scanReg (skipBlanks (regName i ++ x :: u)) = some (regName i, x :: u) := by
  rw [skipBlanks_regName, scanReg_regName_cons i hx]

theorem scanOffset_skipBlanks (d : Int) {x : Char} (hx : isDigit x = false) (u : Text) :
    scanOffset (skipBlanks (intText d ++ x :: u)) = some (d, x :: u) := by
  rw [skipBlanks_intText, scanOffset_intText d (by simpa using hx)]

/-! ## The rendering of a record read back (R120) -/

/-- A line that begins with a word but with no colon behind it has no label. -/
theorem scanLinePrefix_word {w u : Text} {x : Char} (hw : IsWord w) (hx : isLabelChar x = false) (hcolon : x ≠ ':') :
    scanLinePrefix (w ++ x :: u) = (none, w ++ x :: u) := by
  have hskip : skipBlanks (w ++ x :: u) = w ++ x :: u := by
    obtain ⟨hne, hup⟩ := hw
    cases w with
    | nil => exact absurd rfl hne
    | cons c t => exact skipBlanks_cons (not_isBlank_of_kind (hup c (by simp)) (by decide) (by decide))
  have hscan : scanLabel (w ++ x :: u) = some (w, x :: u) :=
    scan_word hw (fun c hc => by simp [isLabelStart, hc]) (fun c hc => by simp [isLabelChar, isLabelStart, hc]) hx
  simp [scanLinePrefix, hskip, hscan, hcolon]

/-- The predicate a rendering shows: none for ALWAYS, the letters for any other condition (R120). -/
def shownPredicate (f : Flags) : Option Text := if f = Flag.always then none else some (condLetters f)

theorem needPredicate_shownPredicate (f : Flags) : needPredicate (shownPredicate f) = .ok f := by
  unfold shownPredicate
  split
  · next h => rw [h]; rfl
  · next h => simp [needPredicate, lookupPredicate_condLetters f h, need]

theorem scanPredicate_condSuffix (f : Flags) (u : Text) :
    scanPredicate (condSuffix f ++ ' ' :: u) = some (shownPredicate f, ' ' :: u) := by
  unfold condSuffix shownPredicate
  split
  · rfl
  · have hscan : scanWord (condLetters f ++ ' ' :: u) = some (condLetters f, ' ' :: u) :=
      scan_word (condLetters_isWord f) (fun _ => id) (fun _ => id) (by decide)
    simp [scanPredicate, hscan]

/-- What follows a mnemonic, the `/` of a predicate or a space, ends the word and the label it could be part of. -/
theorem condSuffix_append_space (f : Flags) (u : Text) :
    ∃ x v, condSuffix f ++ ' ' :: u = x :: v ∧ isUpper x = false ∧ isLabelChar x = false ∧ x ≠ ':' := by
  unfold condSuffix
  split
  · exact ⟨' ', _, rfl, by decide⟩
  · exact ⟨'/', _, rfl, by decide⟩

/-- A line matches FULL as soon as its label, mnemonic and predicate are read, the rendered operands follow, and a
comment or nothing is behind them (R244). -/
theorem matchFull_of_operandText {line t₁ t₂ u op : Text} {label pred comment : Option Text} (rt rs1 rs2 : RegIdx)
    (d : Int) (hlabel : scanLinePrefix line = (label, t₁)) (hop : scanWord t₁ = some (op, t₂))
    (hpred : scanPredicate t₂ = some (pred, ' ' :: ' ' :: operandText rt rs1 rs2 d ++ u))
    (hcomment : scanLineSuffix u = some comment) :
    matchFull line = some ⟨label, op, pred, regName rt, regName rs1, regName rs2, d, comment⟩ := by
  simp only [operandText, List.append_assoc, List.cons_append, List.nil_append] at hpred
  simp only [matchFull, hlabel, Option.bind_eq_bind, Option.pure_def, Option.bind_eq_some_iff]
  exact ⟨_, hop, _, hpred, _, someBlanks_regName rt _,
    _, scanReg_regName_cons rt (by decide) _, _, expect_skipBlanks (by decide) _,
    _, scanReg_skipBlanks rs1 (by decide) _, _, expect_skipBlanks (by decide) _,
    _, scanReg_skipBlanks rs2 (by decide) _, _, expect_skipBlanks (by decide) _,
    _, scanOffset_skipBlanks d (by decide) _, _, expect_skipBlanks (by decide) _, _, hcomment, rfl⟩

theorem matchFull_render (r : Record) :
    matchFull (render r) = some ⟨none, opcodeName r.opcode, shownPredicate r.cond, regName r.rt, regName r.rs1,
      regName r.rs2, r.offset, none⟩ := by
  obtain ⟨x, v, hxv, hupper, hlabel, hcolon⟩ :=
    condSuffix_append_space r.cond (' ' :: operandText r.rt r.rs1 r.rs2 r.offset)
  have hsplit : render r = opcodeName r.opcode ++ x :: v := hxv ▸ List.append_assoc ..
  have hword := opcodeName_isWord r.opcode
  refine matchFull_of_operandText (t₁ := render r) (t₂ := x :: v) (u := []) r.rt r.rs1 r.rs2 r.offset ?_ ?_ ?_ rfl
  · rw [hsplit]
    exact scanLinePrefix_word hword hlabel hcolon
  · rw [hsplit]
    exact scan_word hword (fun _ => id) (fun _ => id) hupper
  · rw [← hxv, List.append_nil]
    exact scanPredicate_condSuffix ..

theorem trimEnd_of_getLast {t : Text} {c : Char} (hlast : t.getLast? = some c) (hc : isTrailing c = false) :
    trimEnd t = t := by
  obtain ⟨u, rfl⟩ := List.getLast?_eq_some_iff.mp hlast
  simp [trimEnd, hc]

theorem trimEnd_render (r : Record) : trimEnd (render r) = render r :=
  trimEnd_of_getLast (c := ']') (by simp [render, operandText, List.getLast?_cons]) (by decide)

/-- Settles O52. -/
theorem renderedRecordParsesBack : Obligations.RenderedRecordParsesBack := by
  intro r hwf
  have hd : offsetInRange r.offset = true := hwf
  simp only [parseLine, trimEnd_render, parseTrimmed, matchFull_render, FullShape.line, lookupOpcode_opcodeName,
    lookupRegister_regName, needPredicate_shownPredicate, need, hd]
  rfl

end Sys2Proof.Asm
end

section
/-! The ALU's result and flags, opcode by opcode (spec/41_alu.md): the obligations of that family. -/

namespace Sys2Proof.Machine

/-! ## Results -/

/-- HALT, LOAD and STORE reuse the sum of ADD (R141, R145). -/
theorem aluResult_of_adds {op : Opcode} (h : op = .add ∨ op = .halt ∨ op = .load ∨ op = .store) (a b : Word) :
    aluResult op a b = BitVec.ofInt 32 (a.toInt + b.toInt) := by
  rcases h with rfl | rfl | rfl | rfl <;> rfl

theorem aluResult_div_zero (a : Word) {b : Word} (h : b.toInt = 0) : aluResult .div a b = 0#32 := if_pos h

/-- The quotient of DIV is truncated toward zero (R144). -/
theorem aluResult_div_nonzero (a : Word) {b : Word} (h : b.toInt ≠ 0) :
    aluResult .div a b = BitVec.ofInt 32 (a.toInt.tdiv b.toInt) := by
  rw [← truncDiv_eq_tdiv]
  exact if_neg h

/-- Settles O10. -/
theorem aluResultOfEachOpcode : Obligations.AluResultOfEachOpcode := fun a b =>
  ⟨fun _ h => aluResult_of_adds h a b, rfl, rfl, aluResult_div_zero a, aluResult_div_nonzero a⟩

/-! ## Flags -/

/-- Adding V leaves M, Z and P as they are, so they are the result's sign for every opcode (R146). -/
theorem aluFlags_signBits (op : Opcode) (b r : Word) {i : Nat} (hi : i < 3) :
    (aluFlags op b r).getLsbD i = (signFlag r).getLsbD i := by
  have hV : Flag.V.getLsbD i = false := by
    interval_cases i <;> rfl
  unfold aluFlags
  split
  · rw [BitVec.getLsbD_or, hV, Bool.or_false]
  · rfl

/-- V is the flag of a division by zero and of nothing else (R147). -/
theorem aluFlags_overflowBit (op : Opcode) (b r : Word) :
    (aluFlags op b r).getLsbD 3 = true ↔ op = .div ∧ b = 0#32 := by
  obtain ⟨-, -, -, hsign⟩ := signFlag_bits r
  rw [← sval_eq_zero b]
  unfold aluFlags
  split
  · next hdiv => simp [hdiv, Flag.V]
  · next hdiv => simp only [hdiv, hsign, Bool.false_eq_true]

/-- Settles O11: the sign bits are those of the result's sign flag, and DIV by zero alone adds V to them. -/
theorem aluFlagsFromResult : Obligations.AluFlagsFromResult := by
  intro op a b r f
  obtain ⟨hM, hZ, hP, -⟩ := signFlag_bits r
  have hsign {i : Nat} (hi : i < 3) : f.getLsbD i = (signFlag r).getLsbD i := aluFlags_signBits op b r hi
  exact ⟨(hsign (by decide)).trans hM, (hsign (by decide)).trans hZ, (hsign (by decide)).trans hP,
    aluFlags_overflowBit op b r⟩

end Sys2Proof.Machine
end

section
/-! The engine around one instruction (spec/42_cpu_engine.md): the skip, the step of a running engine, the host's events
and the records, which steer nothing: the obligations of that family. -/

namespace Sys2Proof.Machine

variable {s t v : State} {r : Record}

/-! ## What every record leaves -/

/-- No record changes SINGLE_STEP or what lies around the core but the memory port (R173, R174). -/
theorem execRecord_surroundings (hx : execRecord r s = .next v) :
    SameSurroundings s v ∧ v.singleStep = s.singleStep := by
  rcases execRecord_cases hx with
    ⟨-, rfl⟩ | ⟨-, ⟨-, rfl⟩ | ⟨-, rfl⟩ | ⟨-, -, rfl⟩ | ⟨-, -, rfl⟩ | ⟨-, -, rfl⟩ | ⟨-, -, rfl⟩⟩
  all_goals exact ⟨⟨rfl, rfl, rfl, rfl⟩, rfl⟩

/-- Settles O14: the instruction runs as a record with its predicate, and a skipped record only increments the PC. -/
theorem failedPredicateOnlyAdvancesPc : Obligations.FailedPredicateOnlyAdvancesPc := by
  intro i c s hc hp
  obtain ⟨r, rfl, hr⟩ := exec_eq_execRecord hc
  have hskip := execRecord_skip ((predicateHolds_eq_false _ _).mpr hp)
  exact ⟨s.incPc, hr.trans hskip, s.pc_incPc_add_one, fun _ hj => s.readReg_incPc hj, rfl, rfl, rfl, ⟨rfl, rfl, rfl⟩,
    ⟨rfl, rfl, rfl, rfl⟩, rfl⟩

/-! ## A turn, by the host's input and the control state -/

theorem Engine.stopped_eq_none {e : Engine} : e.stopped = none ↔ e = .running := by
  cases e <;> simp [Engine.stopped]

section Turn
variable {e : HostEvent} {f : Fault} {rest : List (Option HostEvent)}

theorem step_of_event (hh : s.host = some e :: rest) : step s = .next ((s.setHost rest).hostEvent e) := by
  simp only [step, hh]

theorem step_of_stoppedTurn (hh : s.host = none :: rest) (he : s.engine.stopped = some f) :
    step s = .next (s.setHost rest) := by simp only [step, hh, he]

theorem step_of_stoppedEnd (hh : s.host = []) (he : s.engine.stopped = some f) : step s = .fault f := by
  simp only [step, hh, he]

end Turn

/-! ### The rows of R179 for the host's events -/

theorem State.hostEvent_run (he : s.engine = .idle) (start : Int) (ss : Bool) :
    s.hostEvent (.run start ss) = s.startRun start ss := if_pos he

theorem State.hostEvent_continueSignal (he : s.engine = .paused) :
    s.hostEvent .continueSignal = s.setEngine .running := if_pos he

theorem State.hostEvent_abort (he : s.engine = .running ∨ s.engine = .paused) :
    s.hostEvent .abort = s.setEngine .idle := if_pos he

/-- Settles O42. -/
theorem continueAndAbortMoveOnlyEngine : Obligations.ContinueAndAbortMoveOnlyEngine := fun s rest =>
  ⟨fun hh he => (step_of_event hh).trans (congrArg _ (State.hostEvent_continueSignal (s := s.setHost rest) he)),
    fun hh he => (step_of_event hh).trans (congrArg _ (State.hostEvent_abort (s := s.setHost rest) he))⟩

/-- Settles O41. -/
theorem runStartsTheEngine : Obligations.RunStartsTheEngine := by
  intro s start ss rest hh he
  have hstep : step s = .next ((s.setHost rest).startRun start ss) :=
    (step_of_event hh).trans (congrArg _ (State.hostEvent_run (s := s.setHost rest) he start ss))
  exact ⟨_, hstep, s.pc_writeReg_pc _, rfl, rfl, fun _ hj => s.readReg_writeReg_other hj _, rfl, rfl, rfl, rfl⟩

/-- Settles O43. -/
theorem noStepOutsideRunning : Obligations.NoStepOutsideRunning := by
  refine fun s => ⟨fun hh => ?_, fun rest hh he => ?_⟩
  · have hstop {e : Engine} {f : Fault} (hf : e.stopped = some f) (he : s.engine = e) : step s = .fault f :=
      step_of_stoppedEnd hh (he ▸ hf)
    exact ⟨hstop rfl, hstop rfl, hstop rfl, hstop rfl⟩
  · obtain ⟨f, hf⟩ := Option.ne_none_iff_exists'.mp (mt Engine.stopped_eq_none.mp he)
    exact step_of_stoppedTurn hh hf

/-! ## An engine step -/

/-- Settles O30. -/
theorem stepRunsTheDecodedInstruction : Obligations.StepRunsTheDecodedInstruction := by
  intro s i ht hpc hd
  obtain ⟨r, hr, rfl⟩ := decodeWith_ok hd
  exact ⟨r.toInstr_wf.trans (decodeRecord_wf hr), r, rfl, hr, step_of_decodes ht hpc hr⟩

theorem State.fetchDecode_of_outOfRange (h : s.inRange (sval s.pc) = false) :
    s.fetchDecode = .error (s.raiseFault (.boundsError (sval s.pc) .fetch)) := by
  rw [State.fetchDecode, State.memGet_eq_none.mpr h]

/-- Settles O31. -/
theorem fetchOutOfRangeFaults : Obligations.FetchOutOfRangeFaults := by
  intro s ht hpc
  have hout : (s.setHost s.host.tail).inRange (sval (s.setHost s.host.tail).pc) = false :=
    Bool.eq_false_iff.mpr (mt s.pcInRange_iff.mpr hpc)
  rw [step_of_engineTurn ht, instructionStep, State.fetchDecode_of_outOfRange hout]
  rfl

/-- Settles O35: the event is the one of `State.fetched`, which the record's own meaning keeps. -/
theorem oneObservationPerDecodedStep : Obligations.OneObservationPerDecodedStep := by
  intro s t h
  rcases step_cases h with
    ⟨e, rest, hh, rfl⟩ | ⟨rest, -, he, rfl⟩ | ⟨-, hpc, rfl⟩ | ⟨-, -, ⟨e, hd⟩, rfl⟩ | ⟨ht, hpc, r, v, hd, hx, rfl⟩
  · obtain ⟨-, -, -, hobs, -⟩ := (s.setHost rest).hostEvent_surroundings e
    exact ⟨fun _ ht => absurd ht (not_engineTurn_of_event hh), fun _ => hobs⟩
  · exact ⟨fun _ ht => absurd ht.1 he, fun _ => rfl⟩
  · exact ⟨fun _ _ hr => absurd hr hpc, fun _ => rfl⟩
  · exact ⟨fun r _ _ hr => by simp [hd] at hr, fun _ => rfl⟩
  · obtain ⟨⟨-, -, hobs, -⟩, -⟩ := execRecord_surroundings hx
    refine ⟨fun r' _ _ hr => ?_, ?_⟩
    · obtain rfl : r = r' := by simpa [hd] using hr
      exact v.afterStep_observed.trans hobs
    · rintro (hn | hn | ⟨e, hn⟩)
      · exact absurd ht hn
      · exact absurd hpc hn
      · simp [hd] at hn

/-- A step of a running engine that neither faults nor leaves HALTED true goes on as SINGLE_STEP says (R179, R182). -/
theorem step_engine_of_goesOn (ht : s.engineTurn) (h : step s = .next t) (hf : t.engine ≠ .faulted)
    (hh : t.halted = false) : t.engine = if s.singleStep then .paused else .running := by
  rcases step_cases h with
    ⟨e, rest, hhost, -⟩ | ⟨rest, -, he, -⟩ | ⟨-, -, rfl⟩ | ⟨-, -, -, rfl⟩ | ⟨-, -, r, v, -, hx, rfl⟩
  · exact absurd ht (not_engineTurn_of_event hhost)
  · exact absurd ht.1 he
  · exact absurd rfl hf
  · exact absurd rfl hf
  · obtain ⟨-, hss⟩ := execRecord_surroundings hx
    rw [v.afterStep_halted] at hh
    rw [v.afterStep_engine, if_neg (mt v.afterStep_engine_eq_faulted.mpr hf), hh, hss]
    rfl

/-- Settles O34: the invariant of the next state ties FAULTED to FAULT and HALTED_STOP to HALTED; what is left is a step
that goes on. -/
theorem runningStepMovesEngine : Obligations.RunningStepMovesEngine := by
  intro s t hinv ht h
  have hinv' : t.Inv := stepKeepsTheInvariant s t hinv h
  have hgo (hf : t.fault = .noFault) := step_engine_of_goesOn ht h (fun he => hinv'.faulted.mpr he hf)
  refine ⟨hinv'.faulted.mp, fun _ => hinv'.haltedStop.mp, fun hf hh hss => ?_, fun hf hh hss => ?_⟩
  · simp [hgo hf hh, hss]
  · simp [hgo hf hh, hss]

/-! ## The records steer nothing -/

/-- The same state with earlier entries in front of its two records. -/
def State.prependRecords (o : List Observation) (b : List BusAccess) (s : State) : State :=
  s.withRecords (o ++ s.observed) (b ++ s.bus)

section Prepend
variable (o : List Observation) (b : List BusAccess) (s : State)

@[simp] theorem State.prependRecords_flags : (s.prependRecords o b).flags = s.flags := rfl
@[simp] theorem State.prependRecords_engine : (s.prependRecords o b).engine = s.engine := rfl
@[simp] theorem State.prependRecords_mem : (s.prependRecords o b).mem = s.mem := rfl
@[simp] theorem State.prependRecords_reservedBitFaults :
    (s.prependRecords o b).reservedBitFaults = s.reservedBitFaults := rfl
@[simp] theorem State.prependRecords_host : (s.prependRecords o b).host = s.host := rfl
@[simp] theorem State.prependRecords_inRange (a : Int) : (s.prependRecords o b).inRange a = s.inRange a := rfl
@[simp] theorem State.prependRecords_readReg (j : RegIdx) : (s.prependRecords o b).readReg j = s.readReg j := rfl
@[simp] theorem State.prependRecords_pc : (s.prependRecords o b).pc = s.pc := rfl
@[simp] theorem State.prependRecords_result (op : Opcode) (rs1 rs2 : RegIdx) (d : Int) :
    (s.prependRecords o b).result op rs1 rs2 d = s.result op rs1 rs2 d := rfl
@[simp] theorem State.prependRecords_effectiveAddress (op : Opcode) (rs1 rs2 : RegIdx) (d : Int) :
    (s.prependRecords o b).effectiveAddress op rs1 rs2 d = s.effectiveAddress op rs1 rs2 d := rfl

@[simp] theorem State.prependRecords_writeReg (i : RegIdx) (w : Word) :
    (s.prependRecords o b).writeReg i w = (s.writeReg i w).prependRecords o b := rfl
@[simp] theorem State.prependRecords_incPc : (s.prependRecords o b).incPc = s.incPc.prependRecords o b := rfl
@[simp] theorem State.prependRecords_issue (op : Opcode) (rs1 rs2 : RegIdx) (d : Int) :
    (s.prependRecords o b).issue op rs1 rs2 d = (s.issue op rs1 rs2 d).prependRecords o b := rfl
@[simp] theorem State.prependRecords_setHalted :
    (s.prependRecords o b).setHalted = s.setHalted.prependRecords o b := rfl
@[simp] theorem State.prependRecords_raiseFault (c : FaultStatus) :
    (s.prependRecords o b).raiseFault c = (s.raiseFault c).prependRecords o b := rfl
@[simp] theorem State.prependRecords_setWord (a : Nat) (w : Word) :
    (s.prependRecords o b).setWord a w = (s.setWord a w).prependRecords o b := rfl

@[simp] theorem State.prependRecords_logBus (x : BusAccess) :
    (s.prependRecords o b).logBus x = (s.logBus x).prependRecords o b := by
  simp [State.prependRecords, State.withRecords, State.logBus]

@[simp] theorem State.prependRecords_observe (x : Observation) :
    (s.prependRecords o b).observe x = (s.observe x).prependRecords o b := by
  simp [State.prependRecords, State.withRecords, State.observe]

theorem State.prependRecords_afterStep : (s.prependRecords o b).afterStep = s.afterStep.prependRecords o b := by
  unfold State.afterStep
  rw [apply_ite (State.prependRecords o b), apply_ite (State.prependRecords o b), apply_ite (State.prependRecords o b)]
  rfl

theorem State.prependRecords_hostEvent (e : HostEvent) :
    (s.prependRecords o b).hostEvent e = (s.hostEvent e).prependRecords o b := by
  cases e
  case reset => rfl
  all_goals
    rw [State.hostEvent, State.hostEvent, apply_ite (State.prependRecords o b)]
    rfl

/-- No record's meaning reads the two lists, and what it appends it appends to any history. -/
theorem execRecord_prependRecords (r : Record) :
    execRecord r (s.prependRecords o b) = mapNext (State.prependRecords o b) (execRecord r s) := by
  cases hp : predicateHolds s.flags r.cond with
  | false =>
    rw [execRecord_skip hp, execRecord_skip (s := s.prependRecords o b) hp]
    rfl
  | true =>
    cases ho : r.opcode
    case halt => simp [execRecord, ho, execHalt_next, hp, mapNext]
    case load =>
      cases hr : s.inRange (s.effectiveAddress .load r.rs1 r.rs2 r.offset) <;>
        simp [execRecord, ho, execLoad_next, hp, hr, mapNext]
    case store =>
      cases hr : s.inRange (s.effectiveAddress .store r.rs1 r.rs2 r.offset) <;>
        simp [execRecord, ho, execStore_next, hp, hr, mapNext]
    all_goals simp [execRecord, ho, execAdd, execSub, execMul, execDiv, arithmetic_next, hp, mapNext]

theorem State.fetchDecode_prependRecords :
    (s.prependRecords o b).fetchDecode =
      (s.fetchDecode.mapError (State.prependRecords o b)).map (Prod.map id (State.prependRecords o b)) := by
  cases hr : s.inRange (sval s.pc) with
  | false => simp [State.fetchDecode, State.memGet, hr, Except.mapError, Except.map]
  | true =>
    cases hd : decodeRecord s.reservedBitFaults (Memory.read s.mem (sval s.pc).toNat) <;>
      simp [State.fetchDecode, State.memGet, hr, hd, Except.mapError, Except.map]

theorem instructionStep_prependRecords :
    instructionStep (s.prependRecords o b) = mapNext (State.prependRecords o b) (instructionStep s) := by
  unfold instructionStep
  rw [State.fetchDecode_prependRecords]
  cases s.fetchDecode with
  | error u => rfl
  | ok p =>
    obtain ⟨r, u⟩ := p
    obtain ⟨v, hv⟩ := execRecord_next r u
    simp [Except.mapError, Except.map, exec_toInstr, execRecord_prependRecords, hv, mapNext,
      State.prependRecords_afterStep]

/-- A turn after a longer history is the same turn, appending the same entries. -/
theorem step_prependRecords :
    step (s.prependRecords o b) = mapNext (State.prependRecords o b) (step s) := by
  unfold step
  rw [State.prependRecords_host, State.prependRecords_engine]
  match s.host, s.engine.stopped with
  | some e :: rest, _ => exact congrArg _ ((s.setHost rest).prependRecords_hostEvent o b e)
  | none :: rest, none => exact instructionStep_prependRecords o b (s.setHost rest)
  | none :: rest, some _ => rfl
  | [], none => exact instructionStep_prependRecords o b s
  | [], some _ => rfl

end Prepend

/-- Settles O49: both turns are the turn from the state with empty records, with a history put in front. -/
theorem recordsDoNotSteer : Obligations.RecordsDoNotSteer := by
  intro s t o b h
  have hstep (o : List Observation) (b : List BusAccess) :
      step (s.withRecords o b) = mapNext (State.prependRecords o b) (step (s.withRecords [] [])) := by
    rw [← step_prependRecords]
    simp [State.prependRecords, State.withRecords]
  obtain ⟨u, hu, rfl⟩ := mapNext_next ((hstep s.observed s.bus).symm.trans h)
  exact ⟨u.observed, u.bus, (hstep o b).trans (congrArg _ hu), rfl, rfl⟩

end Sys2Proof.Machine
end

section
/-! The seven instructions one by one (spec/43_instructions.md): what each does when its predicate holds, what HALT, LOAD
and STORE leave unchanged, and a jump out of memory: the obligations of that family. -/

namespace Sys2Proof

/-- The word of a record, under the mask of its opcode field, is the opcode's number in its place (R81, R116). -/
theorem Record.encode_and_opcodeMask (op : Opcode) (c : Flags) (t a b : RegIdx) (d : Int) :
    (Record.mk op c t a b d).encode &&& 0x7C000000#32 = 0#1 ++ BitVec.ofInt 5 op.num ++ 0#26 := by
  rw [Record.encode, packFields_eq_layout]
  apply BitVec.eq_of_getLsbD_eq
  intro k hk
  have hk' : k < 32 := hk
  simp only [BitVec.getLsbD_and, BitVec.getLsbD_append]
  interval_cases k <;> simp

end Sys2Proof

namespace Sys2Proof.Machine

variable {s t u v : State} {r : Record}

/-! ## What a record leaves, by its opcode and its address -/

theorem eq_incPc_of_skipped (hp : s.flags &&& r.cond = 0#4) (hx : execRecord r s = .next v) : v = s.incPc := by
  rw [execRecord_skip ((predicateHolds_eq_false _ _).mpr hp)] at hx
  cases hx
  rfl

theorem execRecord_sameRegistersBut (hx : execRecord r s = .next v) : SameRegistersBut r.rt s v := by
  intro j hj h15
  have hw (x : Word) : (s.incPc.writeReg r.rt x).readReg j = s.readReg j := by
    rw [State.readReg_writeReg_other _ hj, s.readReg_incPc h15]
  rcases execRecord_cases hx with
    ⟨-, rfl⟩ | ⟨-, ⟨-, rfl⟩ | ⟨-, rfl⟩ | ⟨-, -, rfl⟩ | ⟨-, -, rfl⟩ | ⟨-, -, rfl⟩ | ⟨-, -, rfl⟩⟩
  case inr.inr.inl => exact hw _
  case inr.inr.inr.inl => exact hw _
  all_goals exact s.readReg_incPc h15

/-- HALT and STORE write no register: only the PC moves (R200, R202). -/
theorem execRecord_sameRegisters (ho : r.opcode = .halt ∨ r.opcode = .store) (hx : execRecord r s = .next v) :
    SameRegisters s v := by
  intro j h15
  rcases execRecord_cases hx with
    ⟨-, rfl⟩ | ⟨-, ⟨-, rfl⟩ | ⟨ho', -⟩ | ⟨ho', -, -⟩ | ⟨-, -, rfl⟩ | ⟨-, -, rfl⟩ | ⟨-, -, rfl⟩⟩
  case inr.inr.inl => rcases ho with ho | ho <;> simp [ho] at ho'
  case inr.inr.inr.inl => rcases ho with ho | ho <;> simp [ho] at ho'
  all_goals exact s.readReg_incPc h15

/-- Memory after a record: as it was, or with the word of an executed STORE whose address is valid (R202, R292). -/
theorem execRecord_mem (hx : execRecord r s = .next v) :
    v.mem = s.mem ∨
      (r.opcode = .store ∧ s.flags &&& r.cond ≠ 0#4 ∧ s.inRange (s.addressOf r) = true ∧
        v.mem = Memory.write s.mem (s.addressOf r).toNat (s.storedValue r.rt)) := by
  rcases execRecord_cases hx with
    ⟨-, rfl⟩ | ⟨hp, ⟨-, rfl⟩ | ⟨-, rfl⟩ | ⟨-, -, rfl⟩ | ⟨-, -, rfl⟩ | ⟨ho, hr, rfl⟩ | ⟨-, -, rfl⟩⟩
  case inr.inr.inr.inr.inr.inl => exact .inr ⟨ho, (predicateHolds_iff _ _).mp hp, hr, rfl⟩
  all_goals exact .inl rfl

theorem execRecord_sameMemory (h : r.opcode ≠ .store ∨ s.flags &&& r.cond = 0#4 ∨ s.inRange (s.addressOf r) = false)
    (hx : execRecord r s = .next v) : SameMemory s v := by
  intro a
  rcases execRecord_mem hx with hm | ⟨ho, hp, hr, -⟩
  · rw [hm]
  · rcases h with h | h | h
    · exact absurd ho h
    · exact absurd h hp
    · simp [hr] at h

theorem execRecord_sameMemoryBut (hx : execRecord r s = .next v) : SameMemoryBut (s.addressOf r) s v := by
  intro a ha
  rcases execRecord_mem hx with hm | ⟨-, -, hr, hm⟩
  · rw [hm]
  · have hpos := ((s.inRange_iff _).mp hr).1
    rw [hm, Memory.read_write_other _ (by omega)]

/-- A record that is skipped, or that has no address out of range to access, leaves FAULT, ENGINE and SINGLE_STEP. -/
theorem execRecord_sameEngine
    (h : s.flags &&& r.cond = 0#4 ∨ (r.opcode = .load ∨ r.opcode = .store → s.inRange (s.addressOf r) = true))
    (hx : execRecord r s = .next v) : SameEngine s v := by
  rcases h with hp | hr
  · rw [eq_incPc_of_skipped hp hx]
    exact ⟨rfl, rfl, rfl⟩
  · obtain ⟨hfault, hengine⟩ := execRecord_noFault hr hx
    exact ⟨hfault, hengine, (execRecord_surroundings hx).2⟩

theorem execRecord_halted_of_ne_halt (ho : r.opcode ≠ .halt) (hx : execRecord r s = .next v) :
    v.halted = s.halted :=
  (execRecord_halted hx).resolve_right fun h => ho h.1

theorem execRecord_flags_of_skipped (hp : s.flags &&& r.cond = 0#4) (hx : execRecord r s = .next v) :
    v.flags = s.flags := by
  rw [eq_incPc_of_skipped hp hx, State.incPc_flags]

/-! ## The frames of HALT, LOAD and STORE -/

/-- Settles O26. -/
theorem haltFrame : Obligations.HaltFrame := by
  intro c rt rs1 rs2 d s t h
  have hx : execRecord ⟨.halt, c, rt, rs1, rs2, d⟩ s = .next t := h
  have hbus := (execRecord_accesses hx).1
  rw [State.dataAccesses_noData (by simp) (by simp), List.append_nil] at hbus
  refine ⟨execRecord_sameRegisters (.inl rfl) hx, execRecord_sameMemory (.inl (by simp)) hx,
    execRecord_sameEngine (.inr (by simp)) hx, (execRecord_surroundings hx).1, hbus, fun hp => ?_⟩
  rw [eq_incPc_of_skipped hp hx]
  exact ⟨rfl, rfl⟩

/-- Settles O27. -/
theorem loadFrame : Obligations.LoadFrame := by
  intro c rt rs1 rs2 d s t h
  have hx : execRecord ⟨.load, c, rt, rs1, rs2, d⟩ s = .next t := h
  obtain ⟨hsurr, hss⟩ := execRecord_surroundings hx
  refine ⟨execRecord_sameRegistersBut hx, execRecord_sameMemory (.inl (by simp)) hx,
    execRecord_halted_of_ne_halt (by simp) hx, hss, hsurr, fun hp => execRecord_flags_of_skipped hp hx, fun hr => ?_⟩
  rw [s.effectiveAddress_eq .load ⟨.load, c, rt, rs1, rs2, d⟩ (by simp)] at hr
  exact execRecord_sameEngine (hr.imp_right fun hr _ => hr) hx

/-- Settles O28. -/
theorem storeFrame : Obligations.StoreFrame := by
  intro c rt rs1 rs2 d s t h
  have hx : execRecord ⟨.store, c, rt, rs1, rs2, d⟩ s = .next t := h
  obtain ⟨hsurr, hss⟩ := execRecord_surroundings hx
  rw [s.effectiveAddress_eq .store ⟨.store, c, rt, rs1, rs2, d⟩ (by simp)]
  exact ⟨execRecord_sameRegisters (.inr rfl) hx, execRecord_sameMemoryBut hx,
    execRecord_halted_of_ne_halt (by simp) hx, hss, hsurr, fun hp => execRecord_flags_of_skipped hp hx,
    fun hr => execRecord_sameMemory (.inr hr) hx,
    fun hr => execRecord_sameEngine (hr.imp_right fun hr _ => hr) hx⟩

/-! ## ADD, SUB, MUL and DIV when they are executed -/

/-- A register write after the PC increment leaves its target and the PC as R175 and R177 say. -/
theorem writesTarget_writeReg (hpc : u.pc = s.pc + 1#32) (rt : RegIdx) (w : Word) :
    WritesTarget s (u.writeReg rt w) rt w :=
  ⟨fun h => u.readReg_writeReg_same h w, State.readReg_zero _, fun h => (u.pc_writeReg_other h w).trans hpc⟩

theorem aluFlags_eq_signOf {op : Opcode} (h : op ≠ .div) (b w : Word) : aluFlags op b w = signOf w :=
  if_neg fun hc => h hc.1

theorem aluFlags_div (b w : Word) :
    aluFlags .div b w = if b.toInt = 0 then signOf w ||| Flag.V else signOf w := by
  simp [aluFlags, signFlag_eq_signOf]

/-- The answer of an executed ADD, SUB, MUL or DIV. -/
theorem execRecord_arithmetic (ho : r.opcode ∈ [Opcode.add, .sub, .mul, .div]) (hp : s.flags &&& r.cond ≠ 0#4) :
    execRecord r s =
      .next ((s.issue r.opcode r.rs1 r.rs2 r.offset).writeReg r.rt (s.result r.opcode r.rs1 r.rs2 r.offset)) := by
  have hr : execRecord r s = arithmetic r.opcode r.cond r.rt r.rs1 r.rs2 r.offset s := by
    simp only [List.mem_cons, List.not_mem_nil, or_false] at ho
    rcases ho with ho | ho | ho | ho <;> rw [execRecord, ho] <;> rfl
  rw [hr, arithmetic_next, if_pos ((predicateHolds_iff _ _).mpr hp)]

/-- What an executed ADD, SUB, MUL or DIV leaves: its result in the target, the ALU's flags, and no fault. -/
theorem exec_arithmetic (ho : r.opcode ∈ [Opcode.add, .sub, .mul, .div]) (hp : s.flags &&& r.cond ≠ 0#4) :
    ∃ t, exec r.toInstr s = .next t ∧ WritesTarget s t r.rt (s.result r.opcode r.rs1 r.rs2 r.offset) ∧
      t.flags = aluFlags r.opcode (s.operand2 r.rs2 r.offset) (s.result r.opcode r.rs1 r.rs2 r.offset) ∧
      t.fault = s.fault :=
  ⟨_, (exec_toInstr r s).trans (execRecord_arithmetic ho hp), writesTarget_writeReg s.pc_incPc_add_one _ _, rfl, rfl⟩

/-- For the three that cannot divide by zero the flags are the sign of the result. -/
theorem exec_addSubMul (ho : r.opcode ∈ [Opcode.add, .sub, .mul]) (hp : s.flags &&& r.cond ≠ 0#4) :
    ∃ t, exec r.toInstr s = .next t ∧ WritesTarget s t r.rt (s.result r.opcode r.rs1 r.rs2 r.offset) ∧
      t.flags = signOf (s.result r.opcode r.rs1 r.rs2 r.offset) ∧ t.fault = s.fault := by
  have hdiv : r.opcode ≠ .div := by
    intro h
    simp [h] at ho
  rw [← aluFlags_eq_signOf hdiv (s.operand2 r.rs2 r.offset)]
  exact exec_arithmetic (List.mem_append_left [Opcode.div] ho) hp

/-- Settles O15. -/
theorem addWritesSum : Obligations.AddWritesSum := by
  intro c rt rs1 rs2 d s hp
  obtain ⟨t, hx, hw, hflags, hfault⟩ := exec_addSubMul (r := ⟨.add, c, rt, rs1, rs2, d⟩) (by simp) hp
  exact ⟨t, hx, hw, hflags, hfault, (Record.encode_and_opcodeMask .add c rt rs1 rs2 d).trans (by decide)⟩

/-- Settles O16. -/
theorem subWritesDifference : Obligations.SubWritesDifference := by
  intro c rt rs1 rs2 d s hp
  obtain ⟨t, hx, hw, hflags, hfault⟩ := exec_addSubMul (r := ⟨.sub, c, rt, rs1, rs2, d⟩) (by simp) hp
  exact ⟨t, hx, hw, hflags, hfault, (Record.encode_and_opcodeMask .sub c rt rs1 rs2 d).trans (by decide)⟩

/-- Settles O17. -/
theorem mulWritesLowProduct : Obligations.MulWritesLowProduct := by
  intro c rt rs1 rs2 d s hp
  obtain ⟨t, hx, hw, hflags, hfault⟩ := exec_addSubMul (r := ⟨.mul, c, rt, rs1, rs2, d⟩) (by simp) hp
  exact ⟨t, hx, hw, hflags, hfault, (Record.encode_and_opcodeMask .mul c rt rs1 rs2 d).trans (by decide)⟩

/-- Settles O18: a zero divisor gives the fixed result 0, whose sign is Z, and V. -/
theorem divWritesQuotient : Obligations.DivWritesQuotient := by
  intro c rt rs1 rs2 d s hp operand2 result
  have hresult : s.result .div rs1 rs2 d = result := by
    by_cases h0 : operand2.toInt = 0
    · exact (aluResult_div_zero _ h0).trans (if_pos h0).symm
    · exact (aluResult_div_nonzero _ h0).trans (if_neg h0).symm
  obtain ⟨t, hx, hw, hflags, hfault⟩ := exec_arithmetic (r := ⟨.div, c, rt, rs1, rs2, d⟩) (by simp) hp
  simp only [hresult] at hw hflags
  refine ⟨t, hx, hw, hfault, hflags.trans ((aluFlags_div operand2 result).trans ?_)⟩
  split
  · next h0 =>
    have hzero : result = 0#32 := if_pos h0
    rw [hzero]
    rfl
  · rfl

/-! ## HALT, LOAD and STORE when they are executed -/

/-- The answer of an executed HALT. -/
theorem execRecord_halt (ho : r.opcode = .halt) (hp : s.flags &&& r.cond ≠ 0#4) :
    execRecord r s = .next (s.issue .halt r.rs1 r.rs2 r.offset).setHalted := by
  rw [execRecord, ho]
  exact (execHalt_next ..).trans (congrArg _ (if_pos ((predicateHolds_iff _ _).mpr hp)))

/-- Settles O19. -/
theorem haltSetsHalted : Obligations.HaltSetsHalted := by
  intro c rt rs1 rs2 d s hp operand2 result
  exact ⟨_, execRecord_halt (r := ⟨.halt, c, rt, rs1, rs2, d⟩) rfl hp, rfl, s.pc_incPc_add_one,
    aluFlags_eq_signOf (op := .halt) (by simp) operand2 result, fun _ hj => s.readReg_incPc hj, fun _ => rfl, rfl⟩

/-- The answer of an executed LOAD whose address is valid. -/
theorem execRecord_load (ho : r.opcode = .load) (hp : s.flags &&& r.cond ≠ 0#4)
    (hr : s.inRange (s.addressOf r) = true) :
    execRecord r s = .next (((s.issue .load r.rs1 r.rs2 r.offset).logBus
      (.get .load (s.addressOf r).toNat (Memory.read s.mem (s.addressOf r).toNat))).writeReg r.rt
        (Memory.read s.mem (s.addressOf r).toNat)) := by
  simp only [execRecord, ho, execLoad_next, (predicateHolds_iff _ _).mpr hp, if_true]
  rw [s.effectiveAddress_eq .load r (by simp), if_pos hr]

/-- Settles O20. -/
theorem loadPlacesWord : Obligations.LoadPlacesWord := by
  intro c rt rs1 rs2 d s hp address hlo hhi
  have hr : s.inRange (s.addressOf ⟨.load, c, rt, rs1, rs2, d⟩) = true := (s.inRange_iff _).mpr ⟨hlo, hhi⟩
  exact ⟨_, execRecord_load rfl hp hr, writesTarget_writeReg s.pc_incPc_add_one _ _,
    State.issue_flags_address (r := ⟨.load, c, rt, rs1, rs2, d⟩) rfl, rfl⟩

/-- Settles O21. -/
theorem storePutsRegister : Obligations.StorePutsRegister := by
  intro c rt rs1 rs2 d s hp address hlo hhi
  have hr : s.inRange (s.addressOf ⟨.store, c, rt, rs1, rs2, d⟩) = true := (s.inRange_iff _).mpr ⟨hlo, hhi⟩
  exact ⟨_, execRecord_store rfl hp hr, Memory.read_write_same _ _ _,
    State.issue_flags_address (r := ⟨.store, c, rt, rs1, rs2, d⟩) rfl, s.pc_incPc_add_one⟩

/-! ## A jump out of memory -/

/-- A step that executes ADD, SUB, MUL or DIV into R15 does not fault: the PC is the result, and with no reason to stop
the engine runs on (R179, R207). -/
theorem step_arithmeticIntoPc (ht : s.engineTurn) (hpc : s.pcInRange) (hh : s.halted = false)
    (hss : s.singleStep = false) (hd : decodeRecord s.reservedBitFaults s.fetchWord = .ok r)
    (ho : r.opcode ∈ [Opcode.add, .sub, .mul, .div]) (hrt : r.rt = 15) (hp : s.flags &&& r.cond ≠ 0#4) :
    ∃ t, step s = .next t ∧ t.fault = s.fault ∧ t.pc = s.result r.opcode r.rs1 r.rs2 r.offset ∧
      t.engine = .running ∧ t.memSize = s.memSize := by
  have hx := execRecord_arithmetic (s := s.fetched r) ho hp
  have hstep := step_of_decodes ht hpc hd
  rw [exec_toInstr, hx, hrt] at hstep
  refine ⟨_, hstep, State.afterStep_fault _, ?_, ?_, State.afterStep_memSize _⟩
  · rw [State.pc, State.readReg, State.afterStep_regs]
    exact State.pc_writeReg_pc _ _
  · simp [State.afterStep_engine, State.fetched, ht.1, hh, hss]

/-- Settles O38: the next turn is an engine step whose fetch is at the result. -/
theorem jumpOutOfMemoryFaultsAtNextFetch : Obligations.JumpOutOfMemoryFaultsAtNextFetch := by
  intro s r ht hpc hh hss hd ho hrt hp hout
  obtain ⟨t, hstep, hfault, htpc, hte, hsize⟩ := step_arithmeticIntoPc ht hpc hh hss hd ho hrt hp
  refine ⟨t, hstep, hfault, htpc, fun hhost => ?_⟩
  have hnot : ¬ t.pcInRange := by
    rw [State.pcInRange, htpc, hsize]
    exact fun hc => by simp [(s.inRange_iff _).mpr hc] at hout
  exact ⟨_, fetchOutOfRangeFaults t ⟨hte, .inl hhost⟩ hnot, by rw [htpc], rfl⟩

end Sys2Proof.Machine
end

section
/-! The assembler's lines (spec/44_assembler.md sections 2, 3 and 5): a rewritten SYMBOLIC line read back, predicate
words and DATA lines: the obligations of that family that speak of one line. -/

namespace Sys2Proof.Asm

/-! ## What a scanner reads and leaves -/

/-- A scan splits the text into the token and the rest, and the token is of its kind. -/
theorem scan_eq_some {start rest : Char → Bool} {t w u : Text} (h : scan start rest t = some (w, u)) :
    t = w ++ u ∧ ∃ c v, w = c :: v ∧ start c = true ∧ ∀ x ∈ v, rest x = true := by
  cases t with
  | nil => cases h
  | cons c t =>
    simp only [scan] at h
    split at h
    · next hc =>
      cases h
      exact ⟨by simp, c, _, rfl, hc, fun x hx => List.mem_takeWhile_imp hx⟩
    · cases h

theorem scan_rest_suffix {start rest : Char → Bool} {t w u : Text} (h : scan start rest t = some (w, u)) :
    u <:+ t := (scan_eq_some h).1 ▸ List.suffix_append w u

theorem scanWord_isWord {t w u : Text} (h : scanWord t = some (w, u)) : IsWord w := by
  obtain ⟨-, c, v, rfl, hc, hv⟩ := scan_eq_some h
  exact ⟨by simp, by simpa [hc] using hv⟩

theorem skipBlanks_suffix (t : Text) : skipBlanks t <:+ t := List.dropWhile_suffix _

theorem someBlanks_suffix {t u : Text} (h : someBlanks t = some u) : u <:+ t := by
  cases t with
  | nil => cases h
  | cons c t =>
    simp only [someBlanks] at h
    split at h
    · cases h
      exact (skipBlanks_suffix t).trans (List.suffix_cons c t)
    · cases h

theorem expect_eq_some {x : Char} {t u : Text} (h : expect x t = some u) : t = x :: u := by
  cases t with
  | nil => cases h
  | cons c t =>
    simp only [expect] at h
    split at h
    · next hc => cases h; rw [hc]
    · cases h

theorem scanPredicate_suffix {t u : Text} {p : Option Text} (h : scanPredicate t = some (p, u)) : u <:+ t := by
  unfold scanPredicate at h
  split at h
  · next v =>
    obtain ⟨⟨w, r⟩, hw, he⟩ := Option.map_eq_some_iff.mp h
    cases he
    exact (scan_rest_suffix hw).trans (List.suffix_cons _ v)
  · cases h
    exact List.suffix_rfl

theorem scanPredicate_isWord {t u w : Text} (h : scanPredicate t = some (some w, u)) : IsWord w := by
  unfold scanPredicate at h
  split at h
  · obtain ⟨⟨w', r⟩, hw, he⟩ := Option.map_eq_some_iff.mp h
    cases he
    exact scanWord_isWord hw
  · cases h

theorem scanTarget_suffix (t : Text) : (scanTarget t).2 <:+ t := by
  unfold scanTarget
  split
  · next r rest hr =>
    split
    · next rest' he =>
      have hcomma : rest' <:+ skipBlanks rest := expect_eq_some he ▸ List.suffix_cons ',' rest'
      exact (skipBlanks_suffix rest').trans (hcomma.trans ((skipBlanks_suffix rest).trans (scan_rest_suffix hr)))
    · exact List.suffix_rfl
  · exact List.suffix_rfl

theorem scanLinePrefix_suffix (t : Text) : (scanLinePrefix t).2 <:+ t := by
  unfold scanLinePrefix
  split
  · next l rest hl =>
    exact (skipBlanks_suffix rest).trans
      ((List.suffix_cons ':' rest).trans ((scan_rest_suffix hl).trans (skipBlanks_suffix t)))
  · exact skipBlanks_suffix t

/-- A token of the LABEL kind (R242). -/
def IsLabel (l : Text) : Prop := ∃ c v, l = c :: v ∧ isLabelStart c = true ∧ ∀ x ∈ v, isLabelChar x = true

theorem scanLinePrefix_isLabel {t l : Text} (h : (scanLinePrefix t).1 = some l) : IsLabel l := by
  unfold scanLinePrefix at h
  split at h
  · next hl =>
    cases h
    exact (scan_eq_some hl).2
  · cases h

/-- The text of a comment, behind its `#`, is the end of the line (R243). -/
theorem scanLineSuffix_comment {t c : Text} (h : scanLineSuffix t = some (some c)) : '#' :: c <:+ t := by
  unfold scanLineSuffix at h
  split at h
  · cases h
  · next hc =>
    cases h
    exact hc ▸ skipBlanks_suffix t
  · cases h

/-! ## What parses as SYMBOLIC -/

/-- What the parse of a SYMBOLIC line guarantees of the three texts a rewritten line keeps: the label is a LABEL, the
predicate text is a WORD with the line's condition, and the comment does not end in a blank (R242, R243, R245). -/
structure Rewritable (label : Option Text) (cond : Flags) (pred comment : Option Text) : Prop where
  isLabel : ∀ l ∈ label, IsLabel l
  isWord : ∀ w ∈ pred, IsWord w
  names : needPredicate pred = .ok cond
  noTrailing : ∀ c ∈ comment, ∃ x, ('#' :: c).getLast? = some x ∧ isTrailing x = false

theorem getLast?_trimEnd {t : Text} {x : Char} (h : (trimEnd t).getLast? = some x) : isTrailing x = false := by
  rw [trimEnd, List.getLast?_reverse] at h
  exact Bool.eq_false_iff.mpr fun hx => by simpa [h, hx] using List.head?_dropWhile_not isTrailing t.reverse

theorem matchSymbolic_eq_some {line : Text} {y : SymbolicShape} (h : matchSymbolic line = some y) :
    y.label = (scanLinePrefix line).1 ∧ (∀ w ∈ y.pred, IsWord w) ∧
      ∃ t, t <:+ line ∧ scanLineSuffix t = some y.comment := by
  simp only [matchSymbolic, Option.bind_eq_bind, Option.pure_def, Option.bind_eq_some_iff] at h
  obtain ⟨⟨name, t₁⟩, hname, op, -, ⟨pred, t₂⟩, hpred, t₃, hblanks, ⟨symbol, t₄⟩, hsymbol, comment, hcomment, he⟩ := h
  cases he
  refine ⟨rfl, fun w hw => ?_, t₄, ?_, hcomment⟩
  · cases hw
    exact scanPredicate_isWord hpred
  · calc t₄ <:+ (scanTarget t₃).2 := scan_rest_suffix hsymbol
      _ <:+ t₃ := scanTarget_suffix t₃
      _ <:+ t₂ := someBlanks_suffix hblanks
      _ <:+ t₁ := scanPredicate_suffix hpred
      _ <:+ (scanLinePrefix line).2 := scan_rest_suffix hname
      _ <:+ line := scanLinePrefix_suffix line

theorem FullShape.line_ne_symbolic (f : FullShape) {label pred comment : Option Text} {op : SymOp} {cond : Flags}
    {target : Option RegIdx} {symbol : Text} :
    f.line ≠ .ok (.symbolic label op cond pred target symbol comment) := by
  intro h
  simp only [FullShape.line, bind, Except.bind, pure, Except.pure] at h
  repeat' split at h
  all_goals cases h

theorem DataShape.line_ne_symbolic (d : DataShape) {label pred comment : Option Text} {op : SymOp} {cond : Flags}
    {target : Option RegIdx} {symbol : Text} :
    d.line ≠ .ok (.symbolic label op cond pred target symbol comment) := by
  intro h
  unfold DataShape.line at h
  repeat' split at h
  all_goals cases h

theorem SymbolicShape.line_eq_symbolic {y : SymbolicShape} {label pred comment : Option Text} {op : SymOp}
    {cond : Flags} {target : Option RegIdx} {symbol : Text}
    (h : y.line = .ok (.symbolic label op cond pred target symbol comment)) :
    y.label = label ∧ y.pred = pred ∧ needPredicate pred = .ok cond ∧ y.comment = comment := by
  simp only [SymbolicShape.line, bind, Except.bind, pure, Except.pure] at h
  repeat' split at h
  all_goals cases h
  all_goals exact ⟨rfl, rfl, ‹_›, rfl⟩

/-- A line that parses as SYMBOLIC matches that shape: no other shape gives a SYMBOLIC line (R241, R253). -/
theorem parseTrimmed_eq_symbolic {line : Text} {label pred comment : Option Text} {op : SymOp} {cond : Flags}
    {target : Option RegIdx} {symbol : Text}
    (h : parseTrimmed line = .ok (.symbolic label op cond pred target symbol comment)) :
    ∃ y, matchSymbolic line = some y ∧ y.line = .ok (.symbolic label op cond pred target symbol comment) := by
  unfold parseTrimmed at h
  split at h
  · next f hf => exact absurd h f.line_ne_symbolic
  · split at h
    · next d hd => exact absurd h d.line_ne_symbolic
    · split at h
      · next y hy => exact ⟨y, hy, h⟩
      · split at h <;> cases h

theorem rewritable_of_parse {text : Text} {label pred comment : Option Text} {op : SymOp} {cond : Flags}
    {target : Option RegIdx} {symbol : Text}
    (h : parseLine text = .ok (.symbolic label op cond pred target symbol comment)) :
    Rewritable label cond pred comment := by
  obtain ⟨y, hy, hline⟩ := parseTrimmed_eq_symbolic h
  obtain ⟨rfl, rfl, hnames, rfl⟩ := SymbolicShape.line_eq_symbolic hline
  obtain ⟨hlabel, hword, t, ht, hcomment⟩ := matchSymbolic_eq_some hy
  refine ⟨fun l hl => scanLinePrefix_isLabel (hlabel ▸ hl), hword, hnames, fun c hc => ?_⟩
  have hend : '#' :: c <:+ trimEnd text := (scanLineSuffix_comment (hcomment.trans (congrArg some hc))).trans ht
  obtain ⟨x, hx⟩ := Option.ne_none_iff_exists'.mp (mt List.getLast?_eq_none_iff.mp (List.cons_ne_nil '#' c))
  obtain ⟨u, hu⟩ := hend
  refine ⟨x, hx, getLast?_trimEnd (t := text) ?_⟩
  rw [← hu, List.getLast?_append, hx]
  rfl

/-! ## A rewritten line read back (R263) -/

theorem alwaysName_isWord : IsWord alwaysName := ⟨by simp [alwaysName], List.all_eq_true.mp (by decide)⟩

theorem skipBlanks_word {w : Text} (hw : IsWord w) (u : Text) : skipBlanks (w ++ u) = w ++ u := by
  obtain ⟨hne, hup⟩ := hw
  cases w with
  | nil => exact absurd rfl hne
  | cons c t => exact skipBlanks_cons (not_isBlank_of_kind (hup c (by simp)) (by decide) (by decide))

theorem scanLineSuffix_commentText (comment : Option Text) : scanLineSuffix (commentText comment) = some comment := by
  cases comment with
  | none => rfl
  | some c => rfl

theorem rewriteRecord_eq (op : SymOp) (cond : Flags) (target : Option RegIdx) (d : Int) :
    rewriteRecord op cond target d =
      ⟨(rewriteRecord op cond target d).opcode, cond, (rewriteRecord op cond target d).rt, 0, 15, d⟩ := by
  cases op <;> rfl

section Rewritable
variable {label pred comment : Option Text} {cond : Flags} (h : Rewritable label cond pred comment)
  (op : SymOp) (target : Option RegIdx) (d : Int)
include h

/-- The predicate a rewritten line writes out is a WORD. -/
theorem Rewritable.getD_isWord : IsWord (pred.getD alwaysName) := by
  cases pred with
  | none => exact alwaysName_isWord
  | some w => exact h.isWord w rfl

/-- It names the line's condition, also when the source line leaves it out (R245). -/
theorem Rewritable.needPredicate_getD : needPredicate (some (pred.getD alwaysName)) = .ok cond := by
  cases pred with
  | none => exact h.names
  | some w => exact h.names

/-- The label part of a rewritten line is read as the label, and the mnemonic is what is left. -/
theorem Rewritable.scanLinePrefix_labelText {w : Text} (hw : IsWord w) (u : Text) :
    scanLinePrefix (labelText label ++ (w ++ '/' :: u)) = (label, w ++ '/' :: u) := by
  cases label with
  | none => exact scanLinePrefix_word hw (by decide) (by decide)
  | some l =>
    obtain ⟨c, v, rfl, hc, hv⟩ := h.isLabel l rfl
    have hskip (u : Text) : skipBlanks (c :: u) = c :: u :=
      skipBlanks_cons (not_isBlank_of_kind hc (by decide) (by decide))
    have hword : skipBlanks (' ' :: (w ++ '/' :: u)) = w ++ '/' :: u := skipBlanks_word hw _
    have hscan : scanLabel (c :: v ++ ':' :: ' ' :: (w ++ '/' :: u)) =
        some (c :: v, ':' :: ' ' :: (w ++ '/' :: u)) := scan_append hc hv (by rintro x ⟨⟩; decide)
    simp only [List.cons_append] at hscan
    simp [scanLinePrefix, labelText, hskip, hscan, hword]

theorem Rewritable.matchFull_rewriteText :
    matchFull (rewriteText label op cond pred target comment d) =
      some ⟨label, opcodeName (rewriteRecord op cond target d).opcode, some (pred.getD alwaysName),
        regName (rewriteRecord op cond target d).rt, regName 0, regName 15, d, comment⟩ := by
  have hname := opcodeName_isWord (rewriteRecord op cond target d).opcode
  have hpred (u : Text) : scanWord (pred.getD alwaysName ++ ' ' :: u) = some (pred.getD alwaysName, ' ' :: u) :=
    scan_word h.getD_isWord (fun _ => id) (fun _ => id) (by decide)
  have hsplit : rewriteText label op cond pred target comment d =
      labelText label ++ (opcodeName (rewriteRecord op cond target d).opcode ++ '/' :: (pred.getD alwaysName ++
        ' ' :: ' ' :: (operandText (rewriteRecord op cond target d).rt 0 15 d ++ commentText comment))) := by
    simp [rewriteText]
  rw [hsplit]
  refine matchFull_of_operandText _ _ _ _ (h.scanLinePrefix_labelText hname _)
    (scan_word hname (fun _ => id) (fun _ => id) (by decide)) ?_ (scanLineSuffix_commentText comment)
  rw [scanPredicate, hpred]
  rfl

theorem Rewritable.trimEnd_rewriteText :
    trimEnd (rewriteText label op cond pred target comment d) =
      rewriteText label op cond pred target comment d := by
  cases comment with
  | none =>
    exact trimEnd_of_getLast (c := ']') (by simp [rewriteText, operandText, commentText, List.getLast?_cons])
      (by decide)
  | some c =>
    obtain ⟨x, hx, htrailing⟩ := h.noTrailing c rfl
    have hcomment : (commentText (some c)).getLast? = some x := by
      rw [commentText, List.getLast?_cons_cons, List.getLast?_cons_cons, hx]
    refine trimEnd_of_getLast (c := x) ?_ htrailing
    rw [rewriteText, List.getLast?_append, hcomment, Option.some_or]

end Rewritable

/-- Settles O53. -/
theorem rewrittenLineParsesBack : Obligations.RewrittenLineParsesBack := by
  intro text label op cond pred target symbol comment d hparse hd
  have h := rewritable_of_parse hparse
  rw [parseLine, h.trimEnd_rewriteText, parseTrimmed, h.matchFull_rewriteText, rewriteRecord_eq]
  simp only [FullShape.line, lookupOpcode_opcodeName, h.needPredicate_getD, lookupRegister_regName, need, hd]
  rfl

/-! ## Predicate words (R245) -/

/-- Each flag is in the set exactly when one of its letters is in the text (R245). -/
def NamesFlags (w : Text) (f : Flags) : Prop :=
  (f.getLsbD 0 = true ↔ 'N' ∈ w ∨ 'M' ∈ w) ∧ (f.getLsbD 1 = true ↔ 'Z' ∈ w) ∧ (f.getLsbD 2 = true ↔ 'P' ∈ w) ∧
    (f.getLsbD 3 = true ↔ 'V' ∈ w)

/-- A text names at most one set of flags. -/
theorem NamesFlags.unique {w : Text} {f g : Flags} (hf : NamesFlags w f) (hg : NamesFlags w g) : f = g := by
  obtain ⟨hf0, hf1, hf2, hf3⟩ := hf
  obtain ⟨hg0, hg1, hg2, hg3⟩ := hg
  apply BitVec.eq_of_getLsbD_eq
  intro i hi
  apply Bool.eq_iff_iff.mpr
  interval_cases i
  · exact hf0.trans hg0.symm
  · exact hf1.trans hg1.symm
  · exact hf2.trans hg2.symm
  · exact hf3.trans hg3.symm

theorem namesFlags_nil : NamesFlags [] Flag.never := by simp [NamesFlags, Flag.never]

/-- The union of two sets is named by the two texts together. -/
theorem NamesFlags.append {v w : Text} {f g : Flags} (hf : NamesFlags v f) (hg : NamesFlags w g) :
    NamesFlags (v ++ w) (f ||| g) := by
  obtain ⟨hf0, hf1, hf2, hf3⟩ := hf
  obtain ⟨hg0, hg1, hg2, hg3⟩ := hg
  have hor (i : Nat) : (f ||| g).getLsbD i = true ↔ f.getLsbD i = true ∨ g.getLsbD i = true := by
    rw [BitVec.getLsbD_or, Bool.or_eq_true]
  refine ⟨?_, ?_, ?_, ?_⟩
  · rw [hor, hf0, hg0, List.mem_append, List.mem_append]
    exact or_or_or_comm
  · rw [hor, hf1, hg1, List.mem_append]
  · rw [hor, hf2, hg2, List.mem_append]
  · rw [hor, hf3, hg3, List.mem_append]

theorem predicateLetter_eq_some {c : Char} {f : Flags} (h : predicateLetter c = some f) :
    c ∈ ['N', 'M', 'Z', 'P', 'V'] ∧ NamesFlags [c] f := by
  unfold predicateLetter at h
  split at h
  all_goals cases h
  all_goals exact ⟨by decide, by decide, by decide, by decide, by decide⟩

theorem exists_predicateLetter {c : Char} (h : c ∈ ['N', 'M', 'Z', 'P', 'V']) : ∃ f, predicateLetter c = some f := by
  simp only [List.mem_cons, List.not_mem_nil, or_false] at h
  rcases h with rfl | rfl | rfl | rfl | rfl <;> exact ⟨_, rfl⟩

theorem predicateLetters_cons_eq_some {c : Char} {t : Text} {f : Flags} :
    predicateLetters (c :: t) = some f ↔
      ∃ g h, predicateLetter c = some g ∧ predicateLetters t = some h ∧ g ||| h = f := by
  simp [predicateLetters, Option.bind_eq_some_iff]

theorem predicateLetters_eq_some {w : Text} {f : Flags} (h : predicateLetters w = some f) :
    (∀ x ∈ w, x ∈ ['N', 'M', 'Z', 'P', 'V']) ∧ NamesFlags w f := by
  induction w generalizing f with
  | nil =>
    cases h
    exact ⟨by simp, namesFlags_nil⟩
  | cons c t ih =>
    obtain ⟨g, k, hc, ht, rfl⟩ := predicateLetters_cons_eq_some.mp h
    obtain ⟨hmem, hg⟩ := predicateLetter_eq_some hc
    obtain ⟨hall, hk⟩ := ih ht
    exact ⟨List.forall_mem_cons.mpr ⟨hmem, hall⟩, hg.append hk⟩

theorem exists_predicateLetters {w : Text} (h : ∀ x ∈ w, x ∈ ['N', 'M', 'Z', 'P', 'V']) :
    ∃ f, predicateLetters w = some f := by
  induction w with
  | nil => exact ⟨_, rfl⟩
  | cons c t ih =>
    obtain ⟨hc, ht⟩ := List.forall_mem_cons.mp h
    obtain ⟨g, hg⟩ := exists_predicateLetter hc
    obtain ⟨k, hk⟩ := ih ht
    exact ⟨_, predicateLetters_cons_eq_some.mpr ⟨g, k, hg, hk, rfl⟩⟩

/-- A text names a set of flags exactly when it is made of the letters, and then the set is the union of theirs. -/
theorem predicateLetters_eq_some_iff {w : Text} {f : Flags} :
    predicateLetters w = some f ↔ (∀ x ∈ w, x ∈ ['N', 'M', 'Z', 'P', 'V']) ∧ NamesFlags w f := by
  refine ⟨predicateLetters_eq_some, fun ⟨hall, hf⟩ => ?_⟩
  obtain ⟨g, hg⟩ := exists_predicateLetters hall
  rw [hg, hf.unique (predicateLetters_eq_some hg).2]

/-- Settles O54: ALWAYS and NEVER are not made of the letters, so the three kinds of word exclude each other. -/
theorem predicateWordsNameFlagSets : Obligations.PredicateWordsNameFlagSets := by
  intro w f
  change lookupPredicate w = some f ↔ (w = alwaysName ∧ f = Flag.always) ∨ (w = neverName ∧ f = Flag.never) ∨
    (w ≠ [] ∧ (∀ x ∈ w, x ∈ ['N', 'M', 'Z', 'P', 'V']) ∧ NamesFlags w f)
  rw [← predicateLetters_eq_some_iff, lookupPredicate]
  split
  · next ha =>
    subst ha
    have hletters : predicateLetters alwaysName = none := rfl
    have hne : alwaysName ≠ neverName := by decide
    simp [hletters, hne, eq_comm]
  · next ha =>
    split
    · next hn =>
      subst hn
      have hletters : predicateLetters neverName = none := rfl
      simp [hletters, ha, eq_comm]
    · next hn =>
      simp only [ha, hn, false_and, false_or]
      split
      · next he => simp [he]
      · next he => simp [he]

/-! ## DATA lines (R249, R250) -/

theorem isLower_of_isDigit {c : Char} (h : isDigit c = true) : isLower c = false := by
  simp only [isDigit, isLower, Bool.and_eq_true, decide_eq_true_eq, Bool.and_eq_false_iff, decide_eq_false_iff_not]
    at h ⊢
  exact .inl fun hlow => absurd (hlow.trans h.2) (by decide)

theorem isTrailing_of_isDigit {c : Char} (h : isDigit c = true) : isTrailing c = false := by
  rw [isTrailing, not_isBlank_of_kind h (by decide) (by decide), Bool.false_or, beq_eq_false_iff_ne]
  rintro rfl
  exact absurd h (by decide)

theorem scanHex_natText (n : Nat) : scanHex (natText n) = none := by
  unfold scanHex
  split
  · next t ht =>
    exact absurd (natText_isDigit n 'x' (by simp [ht])) (by decide)
  · rfl

theorem scanHex_intText (v : Int) : scanHex (intText v) = none := by
  unfold intText
  split
  · rfl
  · exact scanHex_natText _

/-- A rendered integer is read as a VALUE in decimal (R242). -/
theorem scanValue_intText (v : Int) : scanValue (intText v) = some (v, []) := by
  have h := scanOffset_intText v (u := []) (by simp)
  rw [List.append_nil] at h
  rw [scanValue, scanHex_intText, h]

/-- A rendered integer ends in a digit. -/
theorem getLast?_intText (v : Int) : ∃ c, (intText v).getLast? = some c ∧ isDigit c = true := by
  obtain ⟨c, hc⟩ := Option.ne_none_iff_exists'.mp
    (mt List.getLast?_eq_none_iff.mp (natDigits_ne_nil v.natAbs v.natAbs))
  have hlast : (intText v).getLast? = some c := by
    unfold intText natText
    split <;> simp [List.getLast?_cons, hc]
  exact ⟨c, hlast, natText_isDigit _ c (List.mem_of_getLast? hc)⟩

/-- The operands of an instruction begin with a lower-case letter, a number does not. -/
theorem scanReg_intText (v : Int) : scanReg (intText v) = none := by
  have hdigits (n : Nat) : scanReg (natText n) = none := by
    have hd := natText_isDigit n
    cases h : natText n with
    | nil => rfl
    | cons c t =>
      exact if_neg (by simp [isLower_of_isDigit (hd c (by simp [h]))])
  unfold intText
  split
  · rfl
  · exact hdigits _

theorem someBlanks_intText (v : Int) : someBlanks (' ' :: intText v) = some (intText v) := by
  have h := skipBlanks_intText v []
  rw [List.append_nil] at h
  exact congrArg some h

/-- The word DATA (R249). -/
def dataName : Text := ['D', 'A', 'T', 'A']

theorem dataName_isWord : IsWord dataName := ⟨by simp [dataName], List.all_eq_true.mp (by decide)⟩

theorem scanLinePrefix_dataName (u : Text) : scanLinePrefix (dataName ++ ' ' :: u) = (none, dataName ++ ' ' :: u) :=
  scanLinePrefix_word dataName_isWord (by decide) (by decide)

theorem scanWord_dataName (u : Text) : scanWord (dataName ++ ' ' :: u) = some (dataName, ' ' :: u) :=
  scan_word dataName_isWord (fun _ => id) (fun _ => id) (by decide)

/-- A DATA line is no FULL line: its value is no register (R241). -/
theorem matchFull_dataLine (v : Int) : matchFull (dataName ++ ' ' :: intText v) = none := by
  simp [matchFull, scanLinePrefix_dataName, scanWord_dataName, scanPredicate, someBlanks_intText, scanReg_intText]

theorem matchData_dataLine (v : Int) : matchData (dataName ++ ' ' :: intText v) = some ⟨none, some v, none⟩ := by
  have hname : (dataName = ['D', 'A', 'T', 'A']) = True := eq_true rfl
  simp only [matchData, scanLinePrefix_dataName, scanWord_dataName, hname, someBlanks_intText, scanValue_intText,
    Option.bind_eq_bind, Option.bind_some, if_true]
  rfl

theorem trimEnd_dataLine (v : Int) : trimEnd (dataName ++ ' ' :: intText v) = dataName ++ ' ' :: intText v := by
  obtain ⟨c, hc, hd⟩ := getLast?_intText v
  refine trimEnd_of_getLast (c := c) ?_ (isTrailing_of_isDigit hd)
  rw [List.getLast?_append, List.getLast?_cons, hc]
  rfl

/-- Settles O55. -/
theorem dataLineHoldsItsValue : Obligations.DataLineHoldsItsValue := by
  refine ⟨by decide, fun v => ?_⟩
  change parseLine (dataName ++ ' ' :: intText v) = _
  rw [parseLine, trimEnd_dataLine, parseTrimmed, matchFull_dataLine, matchData_dataLine]
  rfl

end Sys2Proof.Asm
end

section
/-! The assembler's two passes (spec/44_assembler.md sections 4 to 7): the error budget, the symbol table and the image:
the obligations of that family that speak of a whole source. -/

namespace Sys2Proof.Asm

/-! ## The error budget (R266) -/

/-- A computation that keeps the budget: it goes on with at most `limit` reports, or aborts with one more. -/
def WithinBudget {α : Type} (limit : Nat) (reports : α → List Report) : Except (List Report) α → Prop
  | .ok a => (reports a).length ≤ limit
  | .error es => es.length = limit + 1

theorem withinBudget_report {α : Type} {limit n : Nat} {errors : List Report} {e : AsmError}
    {reports : α → List Report} {f : List Report → α} (hf : ∀ es, reports (f es) = es)
    (h : errors.length ≤ limit) : WithinBudget limit reports ((report limit errors n e).map f) := by
  obtain ⟨hok, herror⟩ := report_length (n := n) (e := e) h
  cases hr : report limit errors n e with
  | error es => exact herror es hr
  | ok es =>
    obtain ⟨-, hle⟩ := hok es hr
    exact (congrArg List.length (hf es)).trans_le hle

theorem Pass1.step_withinBudget {limit n : Nat} {p : Pass1} {text : Text} (hp : p.errors.length ≤ limit) :
    WithinBudget limit Pass1.errors (p.step limit n text) := by
  unfold Pass1.step
  split
  · exact withinBudget_report (fun _ => rfl) hp
  · split
    · exact hp
    · split
      · exact withinBudget_report (fun _ => rfl) hp
      · exact hp

theorem pass1_withinBudget {limit n : Nat} {lines : List Text} {p : Pass1} (hp : p.errors.length ≤ limit) :
    WithinBudget limit Pass1.errors (pass1 limit n lines p) := by
  induction lines generalizing n p with
  | nil => exact hp
  | cons text rest ih =>
    have hstep := Pass1.step_withinBudget (n := n) (text := text) hp
    rw [pass1]
    split
    · next es hs => rwa [hs] at hstep
    · next q hs =>
      rw [hs] at hstep
      exact ih hstep

theorem Pass2.step_withinBudget {limit : Nat} {table : SymbolTable} {q : Pass2} {p : Parsed}
    (hq : q.errors.length ≤ limit) : WithinBudget limit Pass2.errors (q.step limit table p) := by
  unfold Pass2.step
  split
  · exact hq
  · exact hq
  · exact hq
  · split
    · exact withinBudget_report (fun _ => rfl) hq
    · split
      · exact hq
      · exact withinBudget_report (fun _ => rfl) hq

theorem pass2_withinBudget {limit : Nat} {table : SymbolTable} {parsed : List Parsed} {q : Pass2}
    (hq : q.errors.length ≤ limit) : WithinBudget limit Pass2.errors (pass2 limit table parsed q) := by
  induction parsed generalizing q with
  | nil => exact hq
  | cons p rest ih =>
    have hstep := Pass2.step_withinBudget (table := table) (p := p) hq
    rw [pass2]
    split
    · next es hs => rwa [hs] at hstep
    · next q' hs =>
      rw [hs] at hstep
      exact ih hstep

/-- How an assembly comes to its result (R268). -/
theorem assemble_cases (limit : Nat) (lines : List Text) :
    (∃ es, pass1 limit 1 lines Pass1.start = .error es ∧ assemble limit lines = .aborted es) ∨
      ∃ p, pass1 limit 1 lines Pass1.start = .ok p ∧
        ((∃ es, pass2 limit p.table p.parsed (Pass2.start p.errors) = .error es ∧ assemble limit lines = .aborted es) ∨
          ∃ q, pass2 limit p.table p.parsed (Pass2.start p.errors) = .ok q ∧
            assemble limit lines = if q.errors = [] then .ok q.text q.image else .failed q.errors) := by
  unfold assemble
  split
  · next es h1 => exact .inl ⟨es, h1, rfl⟩
  · next p h1 =>
    refine .inr ⟨p, h1, ?_⟩
    split
    · next es h2 => exact .inl ⟨es, h2, rfl⟩
    · next q h2 => exact .inr ⟨q, h2, rfl⟩

/-- Settles O57: both passes keep the budget. -/
theorem errorBudgetBoundsTheReports : Obligations.ErrorBudgetBoundsTheReports := by
  intro limit lines
  have h1 := pass1_withinBudget (limit := limit) (n := 1) (lines := lines) (p := Pass1.start) (Nat.zero_le _)
  rcases assemble_cases limit lines with ⟨es, hp, ha⟩ | ⟨p, hp, h⟩
  · rw [hp] at h1
    rw [ha]
    exact ⟨by rintro _ ⟨⟩; exact h1, by rintro _ ⟨⟩⟩
  rw [hp] at h1
  have h2 := pass2_withinBudget (table := p.table) (parsed := p.parsed) (q := Pass2.start p.errors) h1
  rcases h with ⟨es, hq, ha⟩ | ⟨q, hq, ha⟩
  · rw [hq] at h2
    rw [ha]
    exact ⟨by rintro _ ⟨⟩; exact h2, by rintro _ ⟨⟩⟩
  rw [hq] at h2
  rw [ha]
  split
  · exact ⟨by rintro _ ⟨⟩, by rintro _ ⟨⟩⟩
  · next hne => exact ⟨by rintro _ ⟨⟩, by rintro _ ⟨⟩; exact ⟨List.length_pos_iff.mpr hne, h2⟩⟩

/-! ## The symbol table (R254, R256) -/

/-- A computation that goes on after a report goes on with the reports. -/
theorem report_map_eq_ok {α : Type} {limit n : Nat} {errors : List Report} {e : AsmError} {f : List Report → α} {a : α}
    (h : (report limit errors n e).map f = .ok a) : a = f (errors ++ [Report.mk n e]) := by
  unfold report at h
  split at h
  · cases h
  · exact (Except.ok.inj h).symm

/-- A line of pass 1 adds to the end of the table or leaves it. -/
theorem Pass1.step_table {limit n : Nat} {p q : Pass1} {text : Text} (h : p.step limit n text = .ok q) :
    ∃ u, q.table = p.table ++ u := by
  unfold Pass1.step at h
  split at h
  · rw [report_map_eq_ok h]
    exact ⟨[], (List.append_nil _).symm⟩
  · split at h
    · cases h
      exact ⟨[], (List.append_nil _).symm⟩
    · split at h
      · rw [report_map_eq_ok h]
        exact ⟨[], (List.append_nil _).symm⟩
      · cases h
        exact ⟨_, rfl⟩

/-- Settles O56, by induction on the lines: what is added to the end of the table hides no label in it. -/
theorem firstDefinitionStays : Obligations.FirstDefinitionStays := by
  intro limit n lines p q l a hl h
  induction lines generalizing n p with
  | nil =>
    cases h
    exact hl
  | cons text rest ih =>
    rw [pass1] at h
    split at h
    · cases h
    · next r hstep =>
      obtain ⟨u, hu⟩ := Pass1.step_table hstep
      exact ih (n + 1) r (hu ▸ SymbolTable.find_append_of_some hl u) h

/-! ## The image (R258 to R261, R269, R270) -/

/-- The words a line at address `k` puts into the image, one or, for a COMMENT line, none (R258 to R261, R270). -/
inductive LineWords (table : SymbolTable) (k : Nat) : Line → List Word → Prop
  | comment (label comment : Option Text) : LineWords table k (.comment label comment) []
  | full (label : Option Text) (r : Record) (comment : Option Text) :
      LineWords table k (.full label r comment) [r.encode]
  | data (label : Option Text) (w : Word) (comment : Option Text) : LineWords table k (.data label w comment) [w]
  | symbolic {symbol : Text} {a : Nat} (label : Option Text) (op : SymOp) (cond : Flags) (pred : Option Text)
      (target : Option RegIdx) (comment : Option Text) (hfind : table.find symbol = some a)
      (hd : offsetInRange ((a : Int) - k) = true) :
      LineWords table k (.symbolic label op cond pred target symbol comment)
        [(rewriteRecord op cond target ((a : Int) - k)).encode]

theorem LineWords.length_eq {table : SymbolTable} {k : Nat} {p : Parsed} {ws : List Word}
    (h : LineWords table k p.line ws) : ws.length = wordsIn [p] := by
  obtain ⟨n, text, line⟩ := p
  cases h <;> rfl

/-- A line of pass 2 after which there is no report has put its words at the end of the image, and the counter has moved
on by their number. -/
theorem Pass2.step_words {limit : Nat} {table : SymbolTable} {q q' : Pass2} {p : Parsed}
    (h : q.step limit table p = .ok q') (herrors : q'.errors = []) :
    q.errors = [] ∧
      ∃ ws, LineWords table q.addr p.line ws ∧ q'.addr = q.addr + ws.length ∧ q'.image = q.image ++ ws := by
  have hreport {e : AsmError} (hr : (report limit q.errors p.number e).map q.skipWord = .ok q') : False := by
    rw [report_map_eq_ok hr] at herrors
    exact List.append_ne_nil_of_right_ne_nil _ (List.cons_ne_nil _ _) herrors
  unfold Pass2.step at h
  split at h
  · next label comment hline =>
    cases h
    rw [hline]
    exact ⟨herrors, [], .comment label comment, rfl, (List.append_nil _).symm⟩
  · next label r comment hline =>
    cases h
    rw [hline]
    exact ⟨herrors, _, .full label r comment, rfl, rfl⟩
  · next label w comment hline =>
    cases h
    rw [hline]
    exact ⟨herrors, _, .data label w comment, rfl, rfl⟩
  · next label op cond pred target symbol comment hline =>
    split at h
    · exact (hreport h).elim
    · next a hfind =>
      split at h
      · next hd =>
        cases h
        rw [hline]
        exact ⟨herrors, _, .symbolic label op cond pred target comment hfind hd, rfl, rfl⟩
      · exact (hreport h).elim

theorem pass2_cons_eq_ok {limit : Nat} {table : SymbolTable} {p : Parsed} {rest : List Parsed} {q r : Pass2}
    (h : pass2 limit table (p :: rest) q = .ok r) :
    ∃ q', q.step limit table p = .ok q' ∧ pass2 limit table rest q' = .ok r := by
  rw [pass2] at h
  split at h
  · cases h
  · next q' hq => exact ⟨q', hq, h⟩

theorem pass2_append_eq_ok {limit : Nat} {table : SymbolTable} {before after : List Parsed} {q r : Pass2}
    (h : pass2 limit table (before ++ after) q = .ok r) :
    ∃ q', pass2 limit table before q = .ok q' ∧ pass2 limit table after q' = .ok r := by
  induction before generalizing q with
  | nil => exact ⟨q, rfl, h⟩
  | cons p rest ih =>
    obtain ⟨q₁, hstep, hrest⟩ := pass2_cons_eq_ok h
    obtain ⟨q₂, hbefore, hafter⟩ := ih hrest
    refine ⟨q₂, ?_, hafter⟩
    rw [pass2, hstep]
    exact hbefore

theorem wordsIn_append (before after : List Parsed) :
    wordsIn (before ++ after) = wordsIn before + wordsIn after := by
  simp [wordsIn]

/-- Pass 2 over lines after which there is no report puts one word per non-comment line at the end of the image. -/
theorem pass2_words {limit : Nat} {table : SymbolTable} {parsed : List Parsed} {q r : Pass2}
    (h : pass2 limit table parsed q = .ok r) (herrors : r.errors = []) :
    q.errors = [] ∧ ∃ ws, ws.length = wordsIn parsed ∧ r.addr = q.addr + ws.length ∧ r.image = q.image ++ ws := by
  induction parsed generalizing q with
  | nil =>
    cases h
    exact ⟨herrors, [], rfl, rfl, (List.append_nil _).symm⟩
  | cons p rest ih =>
    obtain ⟨q', hstep, hrest⟩ := pass2_cons_eq_ok h
    obtain ⟨herrors', ws, hlen, haddr, himage⟩ := ih hrest
    obtain ⟨herrors'', vs, hwords, haddr', himage'⟩ := Pass2.step_words hstep herrors'
    refine ⟨herrors'', vs ++ ws, ?_, ?_, ?_⟩
    · rw [List.length_append, hwords.length_eq, hlen, ← wordsIn_append, List.singleton_append]
    · rw [haddr, haddr', List.length_append, Nat.add_assoc]
    · rw [himage, himage', List.append_assoc]

theorem assemble_eq_ok {limit : Nat} {lines text : List Text} {image : List Word}
    (h : assemble limit lines = .ok text image) :
    ∃ p q, pass1 limit 1 lines Pass1.start = .ok p ∧ pass2 limit p.table p.parsed (Pass2.start p.errors) = .ok q ∧
      q.errors = [] ∧ q.image = image := by
  rcases assemble_cases limit lines with ⟨es, -, ha⟩ | ⟨p, hp, ⟨es, -, ha⟩ | ⟨q, hq, ha⟩⟩
  · cases ha.symm.trans h
  · cases ha.symm.trans h
  · rw [ha] at h
    split at h
    · next hnone =>
      cases h
      exact ⟨p, q, hp, hq, hnone, rfl⟩
    · cases h

/-- Settles O58: pass 2 is cut at the line, and the words before it are as many as the line's address. -/
theorem imageWordOfEachLine : Obligations.ImageWordOfEachLine := by
  intro limit lines text image table parsed before after p hasm htable hparsed hsplit
  obtain ⟨p₁, r, hpass1, hpass2, herrors, rfl⟩ := assemble_eq_ok hasm
  simp only [symbolTable, parsedLines, hpass1, Option.some.injEq] at htable hparsed
  subst htable hparsed
  obtain ⟨-, all, hlen, -, himage⟩ := pass2_words hpass2 herrors
  rw [hsplit] at hpass2
  obtain ⟨q, hbefore, htail⟩ := pass2_append_eq_ok hpass2
  obtain ⟨q', hstep, hafter⟩ := pass2_cons_eq_ok htail
  obtain ⟨herrors', xs, -, -, hxs⟩ := pass2_words hafter herrors
  obtain ⟨herrors'', ws, hwords, -, hws⟩ := Pass2.step_words hstep herrors'
  obtain ⟨-, vs, hvlen, haddr, hvs⟩ := pass2_words hbefore herrors''
  have hk : q.addr = wordsIn before := by rw [haddr, hvlen]; exact Nat.zero_add _
  have hword (w : Word) (hw : ws = [w]) : r.image[wordsIn before]? = some w := by
    rw [hxs, hws, hvs, hw, ← hvlen]
    simp [Pass2.start]
  refine ⟨by rw [himage]; exact hlen, ?_⟩
  rw [hk] at hwords
  generalize p.line = line at hwords ⊢
  cases hwords with
  | comment => trivial
  | full => exact hword _ rfl
  | data => exact hword _ rfl
  | symbolic _ _ _ _ _ _ hfind hd => exact ⟨_, hfind, hd, hword _ rfl⟩

end Sys2Proof.Asm
end

section
/-! JUMP, and a rewritten SYMBOLIC line run at its own address (spec/44_assembler.md section 5): the obligations of that
family that speak of the machine. -/

namespace Sys2Proof.Machine

open Sys2Proof.Asm

variable {s : State}

/-! ## JUMP, and the records a SYMBOLIC line is rewritten to (R259 to R261) -/

/-- Register operands `r0` and `r15` add up to the instruction's own address (R259). -/
theorem State.pcRelative_sum (d : Int) :
    wrap32 ((s.readReg 0).toInt + (s.readReg 15).toInt + d) = BitVec.ofInt 32 (s.pc.toInt + d) := by
  rw [s.readReg_zero, BitVec.toInt_zero, Int.zero_add]
  rfl

/-- Settles O23: a JUMP is the ADD into R15 from `r0` and `r15`. -/
theorem jumpGoesToDisplacement : Obligations.JumpGoesToDisplacement := by
  intro c d s hp
  obtain ⟨t, hx, ⟨htarget, -, -⟩, hflags, -⟩ := exec_addSubMul (r := ⟨.add, c, 15, 0, 15, d⟩) (by simp) hp
  have hresult : s.result .add 0 15 d = BitVec.ofInt 32 (s.pc.toInt + d) :=
    (s.result_of_adds 0 15 d (by simp)).trans (State.pcRelative_sum d)
  have hrecord := (exec_toInstr _ s).symm.trans hx
  have h15 : (15 : RegIdx) ≠ 0 := by decide
  rw [hresult] at htarget hflags
  refine ⟨t, hx, htarget h15, hflags, fun j hj => execRecord_sameRegistersBut hrecord j hj hj, ?_⟩
  exact (execRecord_mem hrecord).resolve_right fun h => by simp at h

/-- An address below 2^31 is the signed value of its word (R51). -/
theorem toInt_ofNat_of_address {a : Nat} (h : a < 2 ^ 31) : (BitVec.ofNat 32 a).toInt = a := by
  rw [← BitVec.ofInt_natCast]
  exact BitVec.toInt_ofInt_eq_self (by decide) (by omega) (by omega)

/-- Settles O59: the PC plus the displacement is the label's address. -/
theorem rewrittenLineReachesItsLabel : Obligations.RewrittenLineReachesItsLabel := by
  intro s c rt a k ha hpc hk hp
  have hsum : BitVec.ofInt 32 (s.pc.toInt + ((a : Int) - k)) = BitVec.ofNat 32 a := by
    rw [hpc, toInt_ofNat_of_address hk, add_sub_cancel, BitVec.ofInt_natCast]
  refine ⟨?_, fun hsize => ?_⟩
  · obtain ⟨t, hx, htpc, -⟩ := jumpGoesToDisplacement c ((a : Int) - k) s hp
    exact ⟨t, hx, htpc.trans hsum⟩
  have haddr (op : SymOp) : s.addressOf (rewriteRecord op c (some rt) ((a : Int) - k)) = a := by
    rw [rewriteRecord_eq, State.addressOf, State.pcRelative_sum, hsum, toInt_ofNat_of_address ha]
  have hr (op : SymOp) : s.inRange (s.addressOf (rewriteRecord op c (some rt) ((a : Int) - k))) = true := by
    rw [haddr, s.inRange_iff]
    omega
  constructor
  · refine ⟨_, (exec_toInstr _ s).trans (execRecord_load rfl hp (hr .load)), fun h0 => ?_⟩
    rw [haddr]
    exact State.readReg_writeReg_same _ h0 _
  · refine ⟨_, (exec_toInstr _ s).trans (execRecord_store rfl hp (hr .store)), ?_⟩
    rw [haddr]
    exact Memory.read_write_same _ _ _

end Sys2Proof.Machine
end

section
/-! The faults of a step (spec/60_exceptions.md): a word that does not decode, and which fault comes first: the obligations
of that family. -/

namespace Sys2Proof

/-- A word with an undefined opcode, or with bit 31 set where that faults, does not decode (R88, R89). -/
theorem decodeRecord_isError {b : Bool} {w : Word}
    (h : w.extractLsb' 26 5 = 4#5 ∨ 8#5 ≤ w.extractLsb' 26 5 ∨ (b = true ∧ w.getLsbD 31 = true)) :
    ∃ e, decodeRecord b w = .error e := by
  by_cases hb : b = true ∧ w.getLsbD 31 = true
  · obtain ⟨rfl, h31⟩ := hb
    exact ⟨_, decodeRecord_reservedBitSet h31⟩
  · have hnum : (w.extractLsb' 26 5).toNat = 4 ∨ 8 ≤ (w.extractLsb' 26 5).toNat := by
      rcases h with h | h | h
      · exact .inl (congrArg BitVec.toNat h)
      · exact .inr (BitVec.le_def.mp h)
      · exact absurd h hb
    exact ⟨_, decodeRecord_of_undefined (by simpa using hb) (Opcode.ofNum_eq_none hnum)⟩

end Sys2Proof

namespace Sys2Proof.Machine

variable {s v : State} {r : Record} {e : DecodeError}

/-! ## A word that does not decode -/

theorem State.fetchDecode_of_error (hr : s.inRange (sval s.pc) = true)
    (hd : decodeRecord s.reservedBitFaults (Memory.read s.mem (sval s.pc).toNat) = .error e) :
    s.fetchDecode = .error ((s.logBus (.get .fetch (sval s.pc).toNat
      (Memory.read s.mem (sval s.pc).toNat))).raiseFault
        (.decodingError (sval s.pc) (Memory.read s.mem (sval s.pc).toNat))) := by
  simp [State.fetchDecode, State.memGet_of_inRange hr, hd]

/-- The step of a word that does not decode is its DecodingError: after the fetch's access nothing else moves (R290). -/
theorem step_of_decodeError (ht : s.engineTurn) (hpc : s.pcInRange)
    (hd : decodeRecord s.reservedBitFaults s.fetchWord = .error e) :
    step s = .next (((s.setHost s.host.tail).logBus (.get .fetch (sval s.pc).toNat s.fetchWord)).raiseFault
      (.decodingError (sval s.pc) s.fetchWord)) := by
  have hf := State.fetchDecode_of_error (s := s.setHost s.host.tail) (s.pcInRange_iff.mp hpc) hd
  rw [step_of_engineTurn ht, instructionStep, hf]
  rfl

/-- Settles O32. -/
theorem undefinedOpcodeFaults : Obligations.UndefinedOpcodeFaults := by
  intro s ht hpc hw
  obtain ⟨e, hd⟩ := decodeRecord_isError hw
  exact ⟨_, step_of_decodeError ht hpc hd, rfl, rfl, rfl, rfl, rfl, rfl, rfl, rfl, rfl⟩

/-! ## Which fault a step raises -/

/-- A record changes FAULT only as an executed LOAD or STORE whose address is out of range (R292, R297). -/
theorem execRecord_fault (hx : execRecord r s = .next v) :
    v.fault = s.fault ∨
      (s.flags &&& r.cond ≠ 0#4 ∧ s.inRange (s.addressOf r) = false ∧
        ((r.opcode = .load ∧ v.fault = .boundsError (s.addressOf r) .load) ∨
          (r.opcode = .store ∧ v.fault = .boundsError (s.addressOf r) .store))) := by
  rcases execRecord_cases hx with
    ⟨-, rfl⟩ | ⟨hp, ⟨-, rfl⟩ | ⟨-, rfl⟩ | ⟨-, -, rfl⟩ | ⟨ho, hr, rfl⟩ | ⟨-, -, rfl⟩ | ⟨ho, hr, rfl⟩⟩
  case inr.inr.inr.inr.inl => exact .inr ⟨(predicateHolds_iff _ _).mp hp, hr, .inl ⟨ho, rfl⟩⟩
  case inr.inr.inr.inr.inr.inr => exact .inr ⟨(predicateHolds_iff _ _).mp hp, hr, .inr ⟨ho, rfl⟩⟩
  all_goals exact .inl rfl

/-- Settles O33: the cases of a turn are the cases of R297, and a record runs in `State.fetched`, whose FLAGS and address
are those before the step. -/
theorem faultsFollowTheStepOrder : Obligations.FaultsFollowTheStepOrder := by
  intro s t h hne
  rcases step_cases h with
    ⟨e, rest, hh, rfl⟩ | ⟨rest, -, -, rfl⟩ | ⟨ht, hpc, rfl⟩ | ⟨ht, hpc, hd, rfl⟩ | ⟨ht, hpc, r, v, hd, hx, rfl⟩
  · obtain rfl : e = .reset := ((s.setHost rest).hostEvent_fault e).resolve_left hne
    exact .inl (congrArg List.head? hh)
  · exact absurd rfl hne
  · exact .inr ⟨ht, .inl ⟨hpc, rfl⟩⟩
  · exact .inr ⟨ht, .inr (.inl ⟨hpc, hd, rfl⟩)⟩
  · rw [v.afterStep_fault] at hne ⊢
    obtain ⟨hp, hr, hf⟩ := (execRecord_fault hx).resolve_left hne
    exact .inr ⟨ht, .inr (.inr ⟨hpc, r, hd, hp, hr, hf⟩)⟩

end Sys2Proof.Machine
end

section
/-! Reset, the final states and boot (spec/70_reset_and_hazards.md): the obligations of that family. -/

namespace Sys2Proof.Machine

variable {s : State}

/-! ## Boot -/

/-- The first turn of a booted machine is the host's `run`. -/
theorem step_boot (size : Nat) (image : List Word) (start : Int) (ss : Bool) :
    step (State.boot size image start ss) =
      .next (((State.boot size image start ss).setHost []).startRun start ss) :=
  (step_of_event rfl).trans (congrArg _ (State.hostEvent_run rfl start ss))

/-- Settles O60: the host's `run` does not touch the memory, which is the loaded image. -/
theorem bootPlacesTheImage : Obligations.BootPlacesTheImage := by
  intro size image start ss
  obtain ⟨hinside, houtside⟩ := Memory.read_load State.reset.mem 0 image
  simp only [Nat.zero_add] at hinside
  exact ⟨_, step_boot size image start ss, rfl, State.pc_writeReg_pc _ _, rfl, rfl, rfl, hinside,
    fun k hk => houtside k (.inr (by omega))⟩

/-! ## Reset -/

theorem State.coreReset_readReg (s : State) (i : RegIdx) : s.coreReset.readReg i = 0#32 := State.reset_readReg i

/-- Settles O40. -/
theorem resetRestoresTheCore : Obligations.ResetRestoresTheCore := fun s rest hh =>
  ⟨(s.setHost rest).coreReset, step_of_event hh, State.coreReset_readReg _, rfl, rfl, rfl, rfl, rfl, rfl, rfl, rfl⟩

/-! ## The final states -/

theorem State.engine_ne_of_final (hs : s.engine = .haltedStop ∨ s.engine = .faulted) :
    s.engine ≠ .idle ∧ s.engine ≠ .running ∧ s.engine ≠ .paused := by
  rcases hs with hs | hs <;> simp [hs]

/-- R179 has no row but reset's for an event of the host in HALTED_STOP or FAULTED (log entry 7). -/
theorem State.hostEvent_of_final {e : HostEvent} (hs : s.engine = .haltedStop ∨ s.engine = .faulted)
    (he : e ≠ .reset) : s.hostEvent e = s := by
  obtain ⟨hidle, hrunning, hpaused⟩ := State.engine_ne_of_final hs
  cases e with
  | reset => exact absurd rfl he
  | run start ss => exact if_neg hidle
  | continueSignal => exact if_neg hpaused
  | abort => exact if_neg (not_or_intro hrunning hpaused)

/-- Settles O44. -/
theorem onlyResetLeavesTheFinalStates : Obligations.OnlyResetLeavesTheFinalStates := by
  intro s x rest hh hs hx
  cases x with
  | none =>
    obtain ⟨-, hrunning, -⟩ := State.engine_ne_of_final hs
    exact (noStepOutsideRunning s).2 rest hh hrunning
  | some e =>
    have hkeep : (s.setHost rest).hostEvent e = s.setHost rest :=
      State.hostEvent_of_final hs (fun he => hx (congrArg some he))
    exact (step_of_event hh).trans (congrArg _ hkeep)

end Sys2Proof.Machine
end

section
/-! The fixed words of section 3 of the test vectors (spec/95_test_vectors.md), read off the round trip of R117 and the
defined opcodes of R85. -/

namespace Sys2Proof

/-- The word of a well-formed hardware instruction decodes to it under the default of `RESERVED_BIT_FAULTS` (R117). -/
theorem decode_of_encode_eq {i : Instr} {w : Word} (hhw : i.isHardware = true) (hwf : i.wf = true)
    (hw : encode i = w) : decode w = .ok i :=
  hw ▸ decodeOfEncodeReturnsTheInstruction Config.reservedBitFaults i hhw hwf

/-- Settles O7: the seven words are the encodings of their instructions, and no instruction has opcode 4 or 31. -/
theorem sampleWordsDecode : Obligations.SampleWordsDecode := by
  refine ⟨?halt, ?load, ?store, ?add, ?sub, ?mul, ?div, ?opcode4, ?opcode31⟩
  case opcode4 => exact (onlySevenOpcodesDecode 0x10000000#32).2 (.inl rfl)
  case opcode31 => exact (onlySevenOpcodesDecode 0xFFFFFFFF#32).2 (.inr (by decide))
  all_goals exact decode_of_encode_eq rfl (by decide) (by decide)

end Sys2Proof
end
